-- ==== Sys2Proof/Word.lean ====
section
/-! DEFINITION. The register and word types of IoTMW-CORE, each a bit vector of the width the spec gives it. -/

namespace Sys2Proof

/-- An accumulator or a slope: 32-bit two's complement with 20 fractional bits (R8, R21). -/
abbrev Acc := BitVec 32

/-- A `phase`, `len` or `gl_end` register: 32-bit unsigned (R11). -/
abbrev Counter := BitVec 32

/-- A configured length in ticks: 20-bit unsigned (R9). -/
abbrev Length := BitVec 20

/-- A level: 8-bit unsigned, `0 ..= 255` (R7, R25). -/
abbrev Level := BitVec 8

/-- An `out` register or the `DATA` field of a response: 16 bits (R7, R28, R88). -/
abbrev OutWord := BitVec 16

/-- A handler reference, 0 meaning unregistered: 16 bits (R15, R87). -/
abbrev HandlerRef := BitVec 16

/-- The opaque context value of a callback: 32 bits (R15, R87). -/
abbrev Context := BitVec 32

/-- The duty cycle in units of 1/65536, `0 ..= 65536`, a 17-bit register whose other values are never
produced (R12, R34; DEDUCED from 93 U5, safe: log entry 9). -/
abbrev Duty := Fin 65537

/-- A command word `cmd[63:0]` (R81). -/
abbrev CmdWord := BitVec 64

end Sys2Proof
end

