-- ==== Sys2Proof/Syntax.lean ====
section
/-! DEFINITION. The 25 operations of rule R90, one constructor per row of spec/opcode_table.json, and the
pseudo-instructions of rule R95. -/

namespace Sys2Proof

/-- An operation with the operands its row of R90 lists, in the order of R94. A length or duty operand is the signed
number `sext(B)` (R82, R85), a level operand the signed number `sext(A)` (R83), a boolean `A != 0` (R84), an index the
unsigned `IDX` (R86); a handler and a context are uninterpreted bit patterns (R87). The clamping of R82, R83 and R85 is
part of the operation's meaning (Machine/Operands.lean; DESIGN CHOICE, safe: log entry 13). -/
inductive Instr where
  /-- `ENV.RENDER` (R122) -/
  | envRender
  /-- `ENV.ATK n` (R123) -/
  | envAtk (n : Int)
  /-- `ENV.DEC n` (R124) -/
  | envDec (n : Int)
  /-- `ENV.SUS v` (R125) -/
  | envSus (v : Int)
  /-- `ENV.REL n` (R126) -/
  | envRel (n : Int)
  /-- `ENV.RETRIG b` (R127) -/
  | envRetrig (b : Bool)
  /-- `ENV.GATE b` (R128) -/
  | envGate (b : Bool)
  /-- `ENV.HEOD h, c` (R129) -/
  | envHeod (h : HandlerRef) (c : Context)
  /-- `ENV.HEOR h, c` (R130) -/
  | envHeor (h : HandlerRef) (c : Context)
  /-- `LFO.RENDER` (R151) -/
  | lfoRender
  /-- `LFO.PERIOD n` (R152) -/
  | lfoPeriod (n : Int)
  /-- `LFO.DUTY d` (R153) -/
  | lfoDuty (d : Int)
  /-- `SEQ.RENDER` (R172) -/
  | seqRender
  /-- `SEQ.STEPLEN n` (R173) -/
  | seqSteplen (n : Int)
  /-- `SEQ.GLIDE n` (R174) -/
  | seqGlide (n : Int)
  /-- `SEQ.APPEND v` (R175) -/
  | seqAppend (v : Int)
  /-- `SEQ.APPENDL v, n` (R176) -/
  | seqAppendl (v n : Int)
  /-- `SEQ.SETSTEP i, v` (R177) -/
  | seqSetstep (i : Nat) (v : Int)
  /-- `SEQ.SETSTEPL i, v, n` (R178) -/
  | seqSetstepl (i : Nat) (v n : Int)
  /-- `SEQ.CLEAR` (R179) -/
  | seqClear
  /-- `SEQ.GATE b` (R180) -/
  | seqGate (b : Bool)
  /-- `SEQ.RESET` (R181) -/
  | seqReset
  /-- `SEQ.HEOS h, c` (R182) -/
  | seqHeos (h : HandlerRef) (c : Context)
  /-- `SEQ.NSTEPS` (R183) -/
  | seqNsteps
  /-- `SEQ.UNIFORM b` (R184) -/
  | seqUniform (b : Bool)
deriving DecidableEq, Repr

/-- The pseudo-instructions of R95: other names for words of the 25 operations. -/
inductive Pseudo where
  /-- `ENV.TRIG` -/
  | envTrig
  /-- `ENV.RELEASE` -/
  | envRelease
  /-- `LFO.DUTYPCT p`, `p` an integer percentage -/
  | lfoDutypct (p : Nat)
  /-- `TICK` -/
  | tick
deriving DecidableEq, Repr

end Sys2Proof
end

