-- ==== Sys2Proof/WellFormed.lean ====
section
/-! DEFINITION. Which operations a command word can carry: the operand ranges of the fields `A`, `B` and `IDX`
(rules R81 to R87) and of the pseudo-instructions (R95). -/

namespace Sys2Proof

/-- A number the 32-bit signed field `B` can hold: `[-2^31, 2^31)` (R82, R85). -/
def fitsB (n : Int) : Bool := decide (-2147483648 ≤ n) && decide (n < 2147483648)

/-- A number the 16-bit signed field `A` can hold: `[-32768, 32768)` (R83). -/
def fitsA (v : Int) : Bool := decide (-32768 ≤ v) && decide (v < 32768)

/-- A number the 8-bit unsigned field `IDX` can hold: `0 ..= 255` (R86). -/
def fitsIdx (i : Nat) : Bool := decide (i < 256)

/-- The operation's operands fit the fields of the command word. -/
def Instr.wellFormed : Instr → Bool
  | .envRender => true
  | .envAtk n => fitsB n
  | .envDec n => fitsB n
  | .envSus v => fitsA v
  | .envRel n => fitsB n
  | .envRetrig _ => true
  | .envGate _ => true
  | .envHeod _ _ => true
  | .envHeor _ _ => true
  | .lfoRender => true
  | .lfoPeriod n => fitsB n
  | .lfoDuty d => fitsB d
  | .seqRender => true
  | .seqSteplen n => fitsB n
  | .seqGlide n => fitsB n
  | .seqAppend v => fitsA v
  | .seqAppendl v n => fitsA v && fitsB n
  | .seqSetstep i v => fitsIdx i && fitsA v
  | .seqSetstepl i v n => fitsIdx i && fitsA v && fitsB n
  | .seqClear => true
  | .seqGate _ => true
  | .seqReset => true
  | .seqHeos _ _ => true
  | .seqNsteps => true
  | .seqUniform _ => true

/-- `LFO.DUTYPCT p` takes a percentage `0 <= p <= 100` (R95). -/
def Pseudo.wellFormed : Pseudo → Bool
  | .envTrig => true
  | .envRelease => true
  | .lfoDutypct p => decide (p ≤ 100)
  | .tick => true

end Sys2Proof
end

