-- ==== Sys2Proof/Decode.lean ====
section
/-! DEFINITION. The command word `CMD64` (rule R81): its fields, the decoder (R90 to R92), and the encoder of the
canonical words (R94). -/

namespace Sys2Proof

/-- `OP`, bits 63:56 (R81). -/
def opField (w : CmdWord) : BitVec 8 := w.extractLsb' 56 8

/-- `IDX`, bits 55:48 (R81). -/
def idxField (w : CmdWord) : BitVec 8 := w.extractLsb' 48 8

/-- `A`, bits 47:32 (R81). -/
def aField (w : CmdWord) : BitVec 16 := w.extractLsb' 32 16

/-- `B`, bits 31:0 (R81). -/
def bField (w : CmdWord) : BitVec 32 := w.extractLsb' 0 32

/-- `sext(B)`, the signed number in `B` (R82, R85). -/
def bSigned (w : CmdWord) : Int := (bField w).toInt

/-- `sext(A)`, the signed number in `A` (R83). -/
def aSigned (w : CmdWord) : Int := (aField w).toInt

/-- `BOOL(A)`: true if `A != 0` (R84). -/
def aBool (w : CmdWord) : Bool := aField w != 0

/-- The index operand, unsigned and not clamped (R86). -/
def idxOperand (w : CmdWord) : Nat := (idxField w).toNat

/-- Why a word is no operation. -/
inductive DecodeError where
  /-- the opcode is one of the 231 outside the table (R91) -/
  | illegalOpcode (op : BitVec 8)
deriving DecidableEq, Repr

/-- The operation a command word selects, by `OP` alone; the fields its row does not list are ignored (R90, R92), and
every opcode outside the table is illegal (R91). -/
def decode (w : CmdWord) : Except DecodeError Instr :=
  match (opField w).toNat with
  | 0x10 => .ok .envRender
  | 0x11 => .ok (.envAtk (bSigned w))
  | 0x12 => .ok (.envDec (bSigned w))
  | 0x13 => .ok (.envSus (aSigned w))
  | 0x14 => .ok (.envRel (bSigned w))
  | 0x15 => .ok (.envRetrig (aBool w))
  | 0x16 => .ok (.envGate (aBool w))
  | 0x17 => .ok (.envHeod (aField w) (bField w))
  | 0x18 => .ok (.envHeor (aField w) (bField w))
  | 0x20 => .ok .lfoRender
  | 0x21 => .ok (.lfoPeriod (bSigned w))
  | 0x22 => .ok (.lfoDuty (bSigned w))
  | 0x30 => .ok .seqRender
  | 0x31 => .ok (.seqSteplen (bSigned w))
  | 0x32 => .ok (.seqGlide (bSigned w))
  | 0x33 => .ok (.seqAppend (aSigned w))
  | 0x34 => .ok (.seqAppendl (aSigned w) (bSigned w))
  | 0x35 => .ok (.seqSetstep (idxOperand w) (aSigned w))
  | 0x36 => .ok (.seqSetstepl (idxOperand w) (aSigned w) (bSigned w))
  | 0x37 => .ok .seqClear
  | 0x38 => .ok (.seqGate (aBool w))
  | 0x39 => .ok .seqReset
  | 0x3A => .ok (.seqHeos (aField w) (bField w))
  | 0x3B => .ok .seqNsteps
  | 0x3C => .ok (.seqUniform (aBool w))
  | _ => .error (.illegalOpcode (opField w))

/-- The operation your decoder reads from a row of spec/opcode_table.json: the table numbers a word's 64 bits as R81
does, so the number is the word. -/
def decodeTableWord (nbits w : Nat) : Option Instr :=
  match decode (BitVec.ofNat 64 (w % 2 ^ nbits)) with
  | .ok i => some i
  | .error _ => none

/-- `cmd = {OP, IDX, A, B}` (R81). -/
def packCmd (op : BitVec 8) (idx : BitVec 8) (a : BitVec 16) (b : BitVec 32) : CmdWord :=
  op ++ idx ++ a ++ b

/-- `B = n mod 2^32` (R94). -/
def encodeB (n : Int) : BitVec 32 := BitVec.ofInt 32 n

/-- `A = v mod 2^16` (R94). -/
def encodeA (v : Int) : BitVec 16 := BitVec.ofInt 16 v

/-- `A = b`, 0 or 1 (R94). -/
def encodeBool (b : Bool) : BitVec 16 := if b then 1 else 0

/-- `IDX = i` (R94). -/
def encodeIdx (i : Nat) : BitVec 8 := BitVec.ofNat 8 i

/-- The canonical command word of an operation: unused fields are 0 (R92, R94). -/
def encode : Instr → CmdWord
  | .envRender => packCmd 0x10 0 0 0
  | .envAtk n => packCmd 0x11 0 0 (encodeB n)
  | .envDec n => packCmd 0x12 0 0 (encodeB n)
  | .envSus v => packCmd 0x13 0 (encodeA v) 0
  | .envRel n => packCmd 0x14 0 0 (encodeB n)
  | .envRetrig b => packCmd 0x15 0 (encodeBool b) 0
  | .envGate b => packCmd 0x16 0 (encodeBool b) 0
  | .envHeod h c => packCmd 0x17 0 h c
  | .envHeor h c => packCmd 0x18 0 h c
  | .lfoRender => packCmd 0x20 0 0 0
  | .lfoPeriod n => packCmd 0x21 0 0 (encodeB n)
  | .lfoDuty d => packCmd 0x22 0 0 (encodeB d)
  | .seqRender => packCmd 0x30 0 0 0
  | .seqSteplen n => packCmd 0x31 0 0 (encodeB n)
  | .seqGlide n => packCmd 0x32 0 0 (encodeB n)
  | .seqAppend v => packCmd 0x33 0 (encodeA v) 0
  | .seqAppendl v n => packCmd 0x34 0 (encodeA v) (encodeB n)
  | .seqSetstep i v => packCmd 0x35 (encodeIdx i) (encodeA v) 0
  | .seqSetstepl i v n => packCmd 0x36 (encodeIdx i) (encodeA v) (encodeB n)
  | .seqClear => packCmd 0x37 0 0 0
  | .seqGate b => packCmd 0x38 0 (encodeBool b) 0
  | .seqReset => packCmd 0x39 0 0 0
  | .seqHeos h c => packCmd 0x3A 0 h c
  | .seqNsteps => packCmd 0x3B 0 0 0
  | .seqUniform b => packCmd 0x3C 0 (encodeBool b) 0

/-- The operations a pseudo-instruction stands for (R95). -/
def expandPseudo : Pseudo → List Instr
  | .envTrig => [.envGate true]
  | .envRelease => [.envGate false]
  | .lfoDutypct p => [.lfoDuty ((p * 65536 / 100 : Nat) : Int)]
  | .tick => [.envRender, .lfoRender, .seqRender]

/-- The mnemonic of an operation (R90). -/
def mnemonic : Instr → String
  | .envRender => "ENV.RENDER"
  | .envAtk _ => "ENV.ATK"
  | .envDec _ => "ENV.DEC"
  | .envSus _ => "ENV.SUS"
  | .envRel _ => "ENV.REL"
  | .envRetrig _ => "ENV.RETRIG"
  | .envGate _ => "ENV.GATE"
  | .envHeod _ _ => "ENV.HEOD"
  | .envHeor _ _ => "ENV.HEOR"
  | .lfoRender => "LFO.RENDER"
  | .lfoPeriod _ => "LFO.PERIOD"
  | .lfoDuty _ => "LFO.DUTY"
  | .seqRender => "SEQ.RENDER"
  | .seqSteplen _ => "SEQ.STEPLEN"
  | .seqGlide _ => "SEQ.GLIDE"
  | .seqAppend _ => "SEQ.APPEND"
  | .seqAppendl _ _ => "SEQ.APPENDL"
  | .seqSetstep _ _ => "SEQ.SETSTEP"
  | .seqSetstepl _ _ _ => "SEQ.SETSTEPL"
  | .seqClear => "SEQ.CLEAR"
  | .seqGate _ => "SEQ.GATE"
  | .seqReset => "SEQ.RESET"
  | .seqHeos _ _ => "SEQ.HEOS"
  | .seqNsteps => "SEQ.NSTEPS"
  | .seqUniform _ => "SEQ.UNIFORM"

/-- The operands of an operation as the numbers R94 writes after the mnemonic, in its order: index, then level, boolean
or handler, then length, duty or context. -/
def asmOperands : Instr → List Int
  | .envRender => []
  | .envAtk n => [n]
  | .envDec n => [n]
  | .envSus v => [v]
  | .envRel n => [n]
  | .envRetrig b => [if b then 1 else 0]
  | .envGate b => [if b then 1 else 0]
  | .envHeod h c => [h.toNat, c.toNat]
  | .envHeor h c => [h.toNat, c.toNat]
  | .lfoRender => []
  | .lfoPeriod n => [n]
  | .lfoDuty d => [d]
  | .seqRender => []
  | .seqSteplen n => [n]
  | .seqGlide n => [n]
  | .seqAppend v => [v]
  | .seqAppendl v n => [v, n]
  | .seqSetstep i v => [i, v]
  | .seqSetstepl i v n => [i, v, n]
  | .seqClear => []
  | .seqGate b => [if b then 1 else 0]
  | .seqReset => []
  | .seqHeos h c => [h.toNat, c.toNat]
  | .seqNsteps => []
  | .seqUniform b => [if b then 1 else 0]

/-- An operation in the assembler syntax of R94: the mnemonic, then its operands in decimal, separated by commas. -/
def asmText (i : Instr) : String :=
  match asmOperands i with
  | [] => mnemonic i
  | ops => mnemonic i ++ " " ++ ", ".intercalate (ops.map (fun n => toString n))

end Sys2Proof
end

