-- ==== Sys2Proof/Config.lean ====
section
/-! DEFINITION. The constants the spec fixes (rules R7 to R12) and the OPEN parameters a machine is built with
(rules R10, R13, R16). -/

namespace Sys2Proof

/-- `LEV_MIN` (R7). -/
def levMin : Level := 0

/-- `LEV_MAX` (R7). -/
def levMax : Level := 255

/-- `ONE = 2^20` accumulator units per level (R8). -/
def one : Nat := 1048576

/-- `LEN_MAX = 2^20 - 1` ticks (R9). -/
def lenMax : Nat := 1048575

/-- `ENTRY_MIN_LEN`, the floor of a ramp set up on entering a state (R10). -/
def entryMinLen : Nat := 1

/-- `DUTY_ONE`, the duty value of the fraction 1 (R12). -/
def dutyOne : Nat := 65536

/-- The number of values of a counter register, `2^PHASE_W` (R11). -/
def counterSize : Nat := 4294967296

/-- The OPEN parameters, "named arguments the model takes" (R10, R13, R16). They are fixed for one machine and
stand in `State` as plain data, so a statement about every state is a statement about every choice of them
(DESIGN CHOICE, log entry 1). -/
structure Params where
  /-- `MIN_RECOMP_LEN`, the floor of a mid-state recomputation (R10). -/
  minRecompLen : Nat
  /-- `SEQ_CAP`, the capacity of the step store (R13). -/
  seqCap : Nat
  /-- `RST_ATK_LEN` (R16). -/
  rstAtkLen : Length
  /-- `RST_DEC_LEN` (R16). -/
  rstDecLen : Length
  /-- `RST_REL_LEN` (R16). -/
  rstRelLen : Length
  /-- `RST_SUS_LEV` (R16). -/
  rstSusLev : Level
  /-- `RST_PERIOD` (R16). -/
  rstPeriod : Length
  /-- `RST_DUTY` (R16). -/
  rstDuty : Duty
  /-- `RST_STEPLEN` (R16). -/
  rstSteplen : Length
  /-- `RST_GLIDELEN` (R16). -/
  rstGlidelen : Length
deriving DecidableEq, Repr

/-- The ranges the spec gives the parameters (R10, R13); those of the `RST_*` parameters are their types'. -/
abbrev Params.Legal (p : Params) : Prop :=
  1 ≤ p.minRecompLen ∧ p.minRecompLen ≤ lenMax ∧ 1 ≤ p.seqCap ∧ p.seqCap ≤ 256

/-- The parameters of `State.reset`: the values of the spec's vectors, `MIN_RECOMP_LEN = 8`, `SEQ_CAP = 16`, "a
parameter not named is 0" (95 preamble). DESIGN CHOICE, unsafe: log entry 1. -/
def Params.vectors : Params where
  minRecompLen := 8
  seqCap := 16
  rstAtkLen := 0
  rstDecLen := 0
  rstRelLen := 0
  rstSusLev := 0
  rstPeriod := 0
  rstDuty := 0
  rstSteplen := 0
  rstGlidelen := 0

end Sys2Proof
end

