-- ==== Sys2Proof/Machine/Arith.lean ====
section
/-! DEFINITION. The shared arithmetic of spec/40_ramp_quantizer.md as functions of numbers (rules R100 to R106) and the
derived lengths of the oscillator (R35). No function here reads or writes State. -/

namespace Sys2Proof.Machine

/-- `clamp(x, lo, hi)` (R17). -/
def clamp (x lo hi : Int) : Int := if x < lo then lo else if hi < x then hi else x

/-- `fx(L) = L * 2^20`, the accumulator value of a level (R100). -/
def fx (l : Level) : Int := (l.toNat : Int) * one

/-- `tdiv(a, n)`: the quotient rounded toward zero, for `n >= 1` (R101). -/
def tdiv (a : Int) (n : Nat) : Int := if 0 ≤ a then a / n else -((-a) / n)

/-- `entry_len(L) = max(L, ENTRY_MIN_LEN)` (R103). -/
def entryLen (l : Length) : Nat := max l.toNat entryMinLen

/-- `remain_len(L) = max(L - phase, MIN_RECOMP_LEN)`, the subtraction on integers (R104). -/
def remainLen (minRecompLen : Nat) (phase : Counter) (l : Length) : Nat :=
  (max ((l.toNat : Int) - phase.toNat) minRecompLen).toNat

/-- `clampq(v) = clamp((v + 2^19) >> 20, 0, 255)`, widened to the 16-bit output; `a >> n = floor(a / 2^n)`
(R17, R106, R107). -/
def clampq (v : Acc) : OutWord := BitVec.ofInt 16 (clamp ((v.toInt + 524288) / 1048576) 0 255)

/-- `len_incline = floor(period * duty / 65536)` (R35); at most `LEN_MAX`, as `duty <= 65536`. -/
def inclineLen (period : Length) (duty : Duty) : Length :=
  BitVec.ofNat 20 (period.toNat * duty.val / dutyOne)

/-- `len_decline = floor(period * (65536 - duty) / 65536)` (R35). -/
def declineLen (period : Length) (duty : Duty) : Length :=
  BitVec.ofNat 20 (period.toNat * (dutyOne - duty.val) / dutyOne)

end Sys2Proof.Machine
end

