-- ==== Sys2Proof/Machine/Operands.lean ====
section
/-! DEFINITION. The operand forms that clamp (rules R82, R83, R85): out-of-range operands give the nearest valid bound,
never an error (R109, R214). Booleans, indices, handlers and contexts are taken as decoded (R84, R86, R87). -/

namespace Sys2Proof.Machine

/-- `LEN(B) = clamp(sext(B), 0, LEN_MAX)` (R82). -/
def lenOperand (n : Int) : Length := BitVec.ofInt 20 (clamp n 0 lenMax)

/-- `LEVEL(A) = clamp(sext(A), 0, 255)` (R83). -/
def levelOperand (v : Int) : Level := BitVec.ofInt 8 (clamp v 0 255)

/-- `DUTY(B) = clamp(sext(B), 0, 65536)` (R85). -/
def dutyOperand (d : Int) : Duty := Fin.ofNat 65537 (clamp d 0 dutyOne).toNat

end Sys2Proof.Machine
end

