-- ==== Sys2Proof/Machine/State.lean ====
section
/-! DEFINITION. The whole state of IoTMW-CORE as plain data (spec/10_state.md), the reasons a step can stop, and the
state after reset. -/

namespace Sys2Proof.Machine

/-- The six states of the envelope (R23); 6 and 7 are unreachable and not represented (93 U4; log entry 9). -/
inductive EnvState where
  | idle
  | attack
  | decay
  | sustain
  | sustainAdjust
  | release
deriving DecidableEq, Repr

/-- The two states of the oscillator (R32). -/
inductive LfoState where
  | incline
  | decline
deriving DecidableEq, Repr

/-- The ramp registers each unit has its own copy of (R2, R20 to R22). -/
structure Ramp where
  /-- the accumulator -/
  value : Acc
  /-- added to `value` per tick -/
  slope : Acc
  /-- ticks elapsed in the current state or step -/
  phase : Counter
  /-- the phase at which the current state or step ends -/
  len : Counter
deriving DecidableEq, Repr

/-- A single-slot callback registration; `handler = 0` means none (R27, R46). -/
structure Slot where
  handler : HandlerRef
  ctx : Context
deriving DecidableEq, Repr

/-- The envelope generator `ENV` (R22 to R28). -/
structure Env where
  state : EnvState
  ramp : Ramp
  atkLen : Length
  decLen : Length
  relLen : Length
  susLev : Level
  retrigger : Bool
  eod : Slot
  eor : Slot
  out : OutWord
deriving DecidableEq, Repr

/-- The oscillator `LFO` (R31 to R36); `lenIncline` and `lenDecline` are held as registers, as R35 allows
(log entry 10). -/
structure Lfo where
  state : LfoState
  ramp : Ramp
  period : Length
  duty : Duty
  lenIncline : Length
  lenDecline : Length
  out : OutWord
deriving DecidableEq, Repr

/-- One entry of the step store: the pair `(val, len)` (R39, R61). -/
structure Step where
  val : Level
  len : Length
deriving DecidableEq, Repr

/-- The step store (R60): the entries written since reset by step index, indices strictly rising. An unlisted index
has no value (R67; log entry 5). The spec's memory has no bytes (R63, R64), so an address holds one entry
(log entry 11). -/
abbrev Memory := List (Nat × Step)

/-- The sequencer `SEQ` (R39 to R49). -/
structure Seq where
  steps : Memory
  nSteps : BitVec 9
  stepIdx : BitVec 8
  uniformStep : Bool
  steplen : Length
  glidelen : Length
  gated : Bool
  eos : Slot
  ramp : Ramp
  tgt : Level
  glEnd : Counter
  rstPending : Bool
  out : OutWord
deriving DecidableEq, Repr

/-- What the outside can present to the core (R80 a, b). -/
inductive Input where
  /-- the reset input `rst` is asserted -/
  | rst
  /-- a word on the command port -/
  | cmd (w : CmdWord)
deriving DecidableEq, Repr

/-- The status codes of a response (R211); code 3 is never produced and not represented (log entry 9). -/
inductive Status where
  | ok
  | full
  | illegal
deriving DecidableEq, Repr

/-- A response word, `{STATUS, DATA}` (R88). -/
structure Response where
  status : Status
  data : OutWord
deriving DecidableEq, Repr

/-- The event sources (R215). -/
inductive EventSrc where
  | eod
  | eor
  | eos
deriving DecidableEq, Repr

/-- An event word, `{SRC, HANDLER, CTX}` (R89). -/
structure Event where
  src : EventSrc
  handler : HandlerRef
  ctx : Context
deriving DecidableEq, Repr

/-- The machine: the three units (R20), and the model's own fields: the OPEN parameters (log entry 1), the inputs not
yet executed (log entry 2), and what the last step put on the response and event ports (log entry 4). -/
structure State where
  params : Params
  env : Env
  lfo : Lfo
  seq : Seq
  inputs : List Input
  rsp : Option Response
  evt : Option Event
deriving DecidableEq, Repr

/-- Why the machine stops with a fault. Neither can happen in a state that meets `Inv` (Sys2Proof/Safety.lean). -/
inductive Fault where
  /-- An entry of the step store with no value is read: raised by `Memory.load`, so by `SEQ.RENDER`, `SEQ.SETSTEP` and
  `SEQ.SETSTEPL`. Safe: "No operation reads an entry that has not been written since reset" (R67; log entry 5). -/
  | unwrittenStep (i : Nat)
  /-- An index at or beyond `SEQ_CAP` reaches the step store: raised by `Memory.load` and `Memory.store`. Safe: "no
  access outside the store exists" (R62; log entry 8). -/
  | noSuchStep (i : Nat)
deriving DecidableEq, Repr

/-- Why a step gives no next state. -/
inductive Refusal where
  /-- An instruction with no meaning yet: raised by `exec`'s arms only. Safe. -/
  | notModelled (mnemonic : String)
  /-- `phase + 1` or `phase + n` exceeds `2^32 - 1`: raised by `counterReg`. Safe: "a model should refuse (give no next
  state)" (R112, 93 U3; log entry 6). -/
  | counterOverflow
  /-- A sum or slope outside the 32-bit accumulator: raised by `accReg`. Safe: excluded by R110 and R214
  (log entry 7). -/
  | accumulatorOverflow
deriving DecidableEq, Repr

/-- No handler registered (R27, R46). -/
def Slot.none : Slot := ⟨0, 0⟩

/-- A ramp at accumulator 0 that does not move. -/
def Ramp.zero : Ramp := ⟨0, 0, 0, 0⟩

/-- `ENV` after reset (R30). -/
def Env.resetWith (p : Params) : Env where
  state := .idle
  ramp := Ramp.zero
  atkLen := p.rstAtkLen
  decLen := p.rstDecLen
  relLen := p.rstRelLen
  susLev := p.rstSusLev
  retrigger := false
  eod := Slot.none
  eor := Slot.none
  out := 0

/-- `LFO` after reset: in Incline at 0 with `ramp_to(fx(LEV_MAX), entry_len(len_incline))` done, so
`len = max(len_incline, 1)` and `slope = tdiv(fx(255), len)` (R38). -/
def Lfo.resetWith (p : Params) : Lfo where
  state := .incline
  ramp :=
    { value := 0
      slope := BitVec.ofInt 32 (tdiv (fx levMax) (entryLen (inclineLen p.rstPeriod p.rstDuty)))
      phase := 0
      len := BitVec.ofNat 32 (entryLen (inclineLen p.rstPeriod p.rstDuty)) }
  period := p.rstPeriod
  duty := p.rstDuty
  lenIncline := inclineLen p.rstPeriod p.rstDuty
  lenDecline := declineLen p.rstPeriod p.rstDuty
  out := 0

/-- `SEQ` after reset: empty, ungated, a reset pending (R51). -/
def Seq.resetWith (p : Params) : Seq where
  steps := []
  nSteps := 0
  stepIdx := 0
  uniformStep := false
  steplen := p.rstSteplen
  glidelen := p.rstGlidelen
  gated := false
  eos := Slot.none
  ramp := Ramp.zero
  tgt := 0
  glEnd := 0
  rstPending := true
  out := 0

/-- The machine with parameters `p` right after reset (R230), nothing presented to it and nothing on its ports. -/
def State.resetWith (p : Params) : State where
  params := p
  env := Env.resetWith p
  lfo := Lfo.resetWith p
  seq := Seq.resetWith p
  inputs := []
  rsp := none
  evt := none

/-- The machine right after reset, with the parameters of the spec's vectors (log entry 1). -/
def State.reset : State := State.resetWith Params.vectors

end Sys2Proof.Machine
end

