-- ==== Sys2Proof/Machine/Flags.lean ====
section
/-! DEFINITION. The conditions an operation tests and the codes of the enumerated registers. The hardware has no
condition codes: "flags" are the one-bit registers and the state registers (spec/41_envelope.md preamble). -/

namespace Sys2Proof.Machine

/-- The 3-bit code of `ENV.state` (R23). -/
def EnvState.code : EnvState → BitVec 3
  | .idle => 0
  | .attack => 1
  | .decay => 2
  | .sustain => 3
  | .sustainAdjust => 4
  | .release => 5

/-- The 1-bit code of `LFO.state` (R32). -/
def LfoState.code : LfoState → BitVec 1
  | .incline => 0
  | .decline => 1

/-- `1 - state` (R151). -/
def LfoState.flip : LfoState → LfoState
  | .incline => .decline
  | .decline => .incline

/-- A state with a ramp; `Idle` and `Sustain` are hold states (R108). -/
def EnvState.isRamp : EnvState → Bool
  | .idle => false
  | .attack => true
  | .decay => true
  | .sustain => false
  | .sustainAdjust => true
  | .release => true

/-- `phase >= len`, the check of a render (R108). -/
def Ramp.atEnd (r : Ramp) : Bool := decide (r.len.toNat ≤ r.phase.toNat)

/-- The store holds `SEQ_CAP` steps, so an append answers `FULL` (R66, R212). -/
def Seq.isFull (p : Params) (q : Seq) : Bool := decide (p.seqCap ≤ q.nSteps.toNat)

/-- `IDX < n_steps`, the index is part of the sequence (R65). -/
def Seq.hasStep (q : Seq) (i : Nat) : Bool := decide (i < q.nSteps.toNat)

/-- `IDX = step_idx and rst_pending = 0`, the step is the active one (R177). -/
def Seq.isActive (q : Seq) (i : Nat) : Bool := decide (i = q.stepIdx.toNat) && !q.rstPending

/-- `gated = 1 and n_steps > 0`, a render advances the output (R172). -/
def Seq.runs (q : Seq) : Bool := q.gated && decide (0 < q.nSteps.toNat)

/-- The event of a callback slot, none when its handler is 0 (R89, R216). -/
def fire (src : EventSrc) (slot : Slot) : Option Event :=
  if slot.handler = 0 then none else some ⟨src, slot.handler, slot.ctx⟩

/-- The 2-bit `STATUS` code (R211). -/
def Status.code : Status → BitVec 2
  | .ok => 0
  | .full => 1
  | .illegal => 2

/-- The 3-bit `SRC` code (R89, R215). -/
def EventSrc.code : EventSrc → BitVec 3
  | .eod => 1
  | .eor => 2
  | .eos => 3

/-- `rsp[17:0] = {STATUS[1:0], DATA[15:0]}` (R88). -/
def Response.word (r : Response) : BitVec 18 := r.status.code ++ r.data

/-- `evt[50:0] = {SRC[2:0], HANDLER[15:0], CTX[31:0]}` (R89). -/
def Event.word (e : Event) : BitVec 51 := e.src.code ++ e.handler ++ e.ctx

end Sys2Proof.Machine
end

