-- ==== Sys2Proof/Machine/Ops.lean ====
section
/-! DEFINITION. The shared operations over registers and the step store: sequencing of partial results, register writes
that must be in range, the ramp primitive (rules R102, R105), the step store (R62, R66, R67), and how an operation ends:
with a response, a status code or an event (R88, R89, R211, R217). -/

namespace Sys2Proof.Machine

/-- A part of an operation: its result, or the reason the whole operation gives no next state. -/
abbrev Res (α : Type) := Host.Outcome α Fault Refusal

/-- Go on with the result of a part; a part that stops, stops the operation with no partial effect. -/
def andThen {α β : Type} (x : Res α) (f : α → Res β) : Res β :=
  match x with
  | .next a => f a
  | .fault r => .fault r
  | .refused r => .refused r

/-- A write of a 32-bit signed register "requires v to be in the register's range" (R17); outside it the spec gives no
effect, which R110 and R214 exclude (DEDUCED, safe: log entry 7). -/
def accReg (x : Int) : Res Acc :=
  if -2147483648 ≤ x ∧ x < 2147483648 then .next (BitVec.ofInt 32 x) else .refused .accumulatorOverflow

/-- A write of a counter register: past `2^32 - 1` "a model should refuse" (R112, 93 U3; log entry 6). -/
def counterReg (x : Nat) : Res Counter :=
  if x < counterSize then .next (BitVec.ofNat 32 x) else .refused .counterOverflow

/-- The accumulator register holding `fx(L)` exactly (R100). -/
def fxReg (l : Level) : Acc := BitVec.ofInt 32 (fx l)

/-- `ramp_to(t, n)`: `slope <- tdiv(t - value, n)`, `len <- phase + n` (R102). -/
def rampTo (r : Ramp) (t : Int) (n : Nat) : Res Ramp :=
  andThen (accReg (tdiv (t - r.value.toInt) n)) fun slope =>
  andThen (counterReg (r.phase.toNat + n)) fun len =>
  .next { r with slope := slope, len := len }

/-- `accumulate`: `value <- value + slope`, `phase <- phase + 1` (R105). -/
def accumulate (r : Ramp) : Res Ramp :=
  andThen (accReg (r.value.toInt + r.slope.toInt)) fun value =>
  andThen (counterReg (r.phase.toNat + 1)) fun phase =>
  .next { r with value := value, phase := phase }

/-- What the store holds at an index; none if nothing has been written there since reset. -/
def Memory.read : Memory → Nat → Option Step
  | [], _ => none
  | (j, x) :: m, i => if i = j then some x else Memory.read m i

/-- The store with index `i` holding `x`; the list stays in rising order. -/
def Memory.write : Memory → Nat → Step → Memory
  | [], i, x => [(i, x)]
  | (j, y) :: m, i, x =>
    if i < j then (i, x) :: (j, y) :: m
    else if i = j then (i, x) :: m
    else (j, y) :: Memory.write m i x

/-- Every index of the list is above `lo`, and they rise strictly. -/
def Memory.risingAbove : Nat → Memory → Bool
  | _, [] => true
  | lo, (j, _) :: m => decide (lo < j) && Memory.risingAbove j m

/-- The canonical form: indices strictly rising. No entry can equal what an unlisted index reads as, which is no
value. -/
def Memory.wf : Memory → Bool
  | [] => true
  | (j, _) :: m => Memory.risingAbove j m

/-- Every listed index exists: it is below `SEQ_CAP` (R60). -/
def Memory.within (cap : Nat) (m : Memory) : Bool := m.all (fun c => decide (c.1 < cap))

/-- `MemRead(i, 1)` (R18, R62). -/
def Memory.load (p : Params) (m : Memory) (i : Nat) : Res Step :=
  if i < p.seqCap then
    match Memory.read m i with
    | some x => .next x
    | none => .fault (.unwrittenStep i)
  else .fault (.noSuchStep i)

/-- `MemWrite(i, 1, (val, len))` (R18, R62). -/
def Memory.store (p : Params) (m : Memory) (i : Nat) (x : Step) : Res Memory :=
  if i < p.seqCap then .next (Memory.write m i x) else .fault (.noSuchStep i)

/-- The state with the envelope's registers replaced. -/
def State.withEnv (s : State) (e : Env) : State := { s with env := e }

/-- The state with the oscillator's registers replaced. -/
def State.withLfo (s : State) (l : Lfo) : State := { s with lfo := l }

/-- The state with the sequencer's registers replaced. -/
def State.withSeq (s : State) (q : Seq) : State := { s with seq := q }

/-- What the step puts on the response and event ports (R88, R89). -/
def State.answer (s : State) (status : Status) (data : OutWord) (ev : Option Event) : State :=
  { s with rsp := some ⟨status, data⟩, evt := ev }

/-- `emit` and `return v`: end the operation with status `OK`, `v` in `DATA`, and its event if it fired one; the event
leaves together with the response, after all state changes (R18, R88, R217). -/
def returnOk (s : State) (v : OutWord) (ev : Option Event) : Res State := .next (s.answer .ok v ev)

/-- `raise Status(code)`: end the operation "with no further state change", `DATA = 0`, no event. Nothing is saved and
control goes nowhere (R18, R211, R218, R219); there is no return operation (R220). -/
def raiseStatus (s : State) (code : Status) : Res State := .next (s.answer code 0 none)

end Sys2Proof.Machine
end

