-- ==== Sys2Proof/Machine/Envelope.lean ====
section
/-! DEFINITION. The nine operations of the envelope generator (spec/41_envelope.md). -/

namespace Sys2Proof.Machine

/-- The entry of a ramp state: `state <- S; phase <- 0; ramp_to(t, n)` (R121). -/
def enterRamp (e : Env) (st : EnvState) (t : Int) (n : Nat) : Res Env :=
  andThen (rampTo { e.ramp with phase := 0 } t n) fun r => .next { e with state := st, ramp := r }

/-- The entry of a hold state at level `l`: `state <- S; phase <- 0; len <- 0; slope <- 0; value <- fx(l)` (R121). -/
def enterHold (e : Env) (st : EnvState) (l : Level) : Res Env :=
  .next { e with state := st, ramp := { value := fxReg l, slope := 0, phase := 0, len := 0 } }

/-- `enter(S)` (R121). -/
def enterEnv (p : Params) (e : Env) : EnvState → Res Env
  | .attack => enterRamp e .attack (fx levMax) (entryLen e.atkLen)
  | .decay => enterRamp e .decay (fx e.susLev) (entryLen e.decLen)
  | .release => enterRamp e .release (fx levMin) (entryLen e.relLen)
  | .sustainAdjust => enterRamp e .sustainAdjust (fx e.susLev) p.minRecompLen
  | .sustain => enterHold e .sustain e.susLev
  | .idle => enterHold e .idle levMin

/-- The end-of-phase transition of a render and the event it fires (R120, R122). -/
def envTransition (p : Params) (e : Env) : Res (Env × Option Event) :=
  if e.state.isRamp && e.ramp.atEnd then
    match e.state with
    | .attack => andThen (enterEnv p e .decay) fun e' => .next (e', none)
    | .decay =>
      andThen (enterEnv p e (if e.retrigger then .attack else .sustain)) fun e' => .next (e', fire .eod e.eod)
    | .sustainAdjust => andThen (enterEnv p e .sustain) fun e' => .next (e', none)
    | .release => andThen (enterEnv p e .idle) fun e' => .next (e', fire .eor e.eor)
    | .idle => .next (e, none)
    | .sustain => .next (e, none)
  else .next (e, none)

/-- The accumulation of a render, in ramp states only (R108, R122). -/
def envAdvance (e : Env) : Res Env :=
  if e.state.isRamp then andThen (accumulate e.ramp) fun r => .next { e with ramp := r } else .next e

/-- `ramp_to(t, n)` on the running ramp (R102). -/
def envRampTo (e : Env) (t : Int) (n : Nat) : Res Env :=
  andThen (rampTo e.ramp t n) fun r => .next { e with ramp := r }

/-- The live change of a configured length `l` whose state is `st` and whose target is `t`: recompute the running ramp
over the remaining ticks if that state is active, else nothing (R104, R109). -/
def envRecompute (p : Params) (e : Env) (st : EnvState) (t : Int) (l : Length) : Res Env :=
  if e.state = st then envRampTo e t (remainLen p.minRecompLen e.ramp.phase l) else .next e

/-- End an operation of the envelope that returns 0 and fires nothing. -/
def envDone (s : State) (e : Env) : Res State := returnOk (s.withEnv e) 0 none

/-- `ENV.RENDER` (R122). -/
def execEnvRender (s : State) : Host.Outcome State Fault Refusal :=
  andThen (envTransition s.params s.env) fun x =>
  andThen (envAdvance x.1) fun e =>
  returnOk (s.withEnv { e with out := clampq e.ramp.value }) (clampq e.ramp.value) x.2

/-- `ENV.ATK n` (R123). -/
def execEnvAtk (n : Int) (s : State) : Host.Outcome State Fault Refusal :=
  if lenOperand n = s.env.atkLen then returnOk s 0 none
  else
    andThen (envRecompute s.params { s.env with atkLen := lenOperand n } .attack (fx levMax) (lenOperand n)) (envDone s)

/-- `ENV.DEC n` (R124). -/
def execEnvDec (n : Int) (s : State) : Host.Outcome State Fault Refusal :=
  if lenOperand n = s.env.decLen then returnOk s 0 none
  else
    andThen (envRecompute s.params { s.env with decLen := lenOperand n } .decay (fx s.env.susLev) (lenOperand n))
      (envDone s)

/-- What a changed sustain level does to the running envelope, by state; `e.susLev` is the new level (R125). -/
def envSusAct (p : Params) (e : Env) : Res Env :=
  match e.state with
  | .decay => envRampTo e (fx e.susLev) (remainLen p.minRecompLen e.ramp.phase e.decLen)
  | .sustain => enterEnv p e .sustainAdjust
  | .sustainAdjust => envRampTo e (fx e.susLev) p.minRecompLen
  | .idle => .next e
  | .attack => .next e
  | .release => .next e

/-- `ENV.SUS v` (R125). -/
def execEnvSus (v : Int) (s : State) : Host.Outcome State Fault Refusal :=
  if levelOperand v = s.env.susLev then returnOk s 0 none
  else andThen (envSusAct s.params { s.env with susLev := levelOperand v }) (envDone s)

/-- `ENV.REL n` (R126). -/
def execEnvRel (n : Int) (s : State) : Host.Outcome State Fault Refusal :=
  if lenOperand n = s.env.relLen then returnOk s 0 none
  else
    andThen (envRecompute s.params { s.env with relLen := lenOperand n } .release (fx levMin) (lenOperand n)) (envDone s)

/-- `ENV.RETRIG b` (R127). -/
def execEnvRetrig (b : Bool) (s : State) : Host.Outcome State Fault Refusal :=
  envDone s { s.env with retrigger := b }

/-- `ENV.GATE b` (R128): every gate acts, from every state. -/
def execEnvGate (b : Bool) (s : State) : Host.Outcome State Fault Refusal :=
  andThen (enterEnv s.params s.env (if b then .attack else .release)) (envDone s)

/-- `ENV.HEOD h, c` (R129). -/
def execEnvHeod (h : HandlerRef) (c : Context) (s : State) : Host.Outcome State Fault Refusal :=
  envDone s { s.env with eod := ⟨h, c⟩ }

/-- `ENV.HEOR h, c` (R130). -/
def execEnvHeor (h : HandlerRef) (c : Context) (s : State) : Host.Outcome State Fault Refusal :=
  envDone s { s.env with eor := ⟨h, c⟩ }

end Sys2Proof.Machine
end

