-- ==== Sys2Proof/Machine/Oscillator.lean ====
section
/-! DEFINITION. The three operations of the oscillator (spec/42_oscillator.md). -/

namespace Sys2Proof.Machine

/-- `target(state)` (R150). -/
def lfoTarget : LfoState → Int
  | .incline => fx levMax
  | .decline => fx levMin

/-- `cur_len(state)` (R150). -/
def lfoCurLen (l : Lfo) : Length :=
  match l.state with
  | .incline => l.lenIncline
  | .decline => l.lenDecline

/-- The flip of a render: `state <- 1 - state; phase <- 0; ramp_to(target(state), entry_len(cur_len(state)))`
(R151). -/
def lfoFlip (l : Lfo) : Res Lfo :=
  andThen
    (rampTo { l.ramp with phase := 0 } (lfoTarget l.state.flip) (entryLen (lfoCurLen { l with state := l.state.flip })))
    fun r => .next { l with state := l.state.flip, ramp := r }

/-- `live_recompute`: both derived lengths from the new parameters, and the running ramp over the remaining ticks
(R152). -/
def lfoRecompute (p : Params) (l : Lfo) : Res Lfo :=
  let l' := { l with lenIncline := inclineLen l.period l.duty, lenDecline := declineLen l.period l.duty }
  andThen (rampTo l'.ramp (lfoTarget l'.state) (remainLen p.minRecompLen l'.ramp.phase (lfoCurLen l'))) fun r =>
  .next { l' with ramp := r }

/-- End an operation of the oscillator that returns 0. -/
def lfoDone (s : State) (l : Lfo) : Res State := returnOk (s.withLfo l) 0 none

/-- `LFO.RENDER` (R151). -/
def execLfoRender (s : State) : Host.Outcome State Fault Refusal :=
  andThen (if s.lfo.ramp.atEnd then lfoFlip s.lfo else .next s.lfo) fun l =>
  andThen (accumulate l.ramp) fun r =>
  returnOk (s.withLfo { l with ramp := r, out := clampq r.value }) (clampq r.value) none

/-- `LFO.PERIOD n` (R152). -/
def execLfoPeriod (n : Int) (s : State) : Host.Outcome State Fault Refusal :=
  if lenOperand n = s.lfo.period then returnOk s 0 none
  else andThen (lfoRecompute s.params { s.lfo with period := lenOperand n }) (lfoDone s)

/-- `LFO.DUTY d` (R153). -/
def execLfoDuty (d : Int) (s : State) : Host.Outcome State Fault Refusal :=
  if dutyOperand d = s.lfo.duty then returnOk s 0 none
  else andThen (lfoRecompute s.params { s.lfo with duty := dutyOperand d }) (lfoDone s)

end Sys2Proof.Machine
end

