-- ==== Sys2Proof/Machine/Sequencer.lean ====
section
/-! DEFINITION. The thirteen operations of the sequencer (spec/43_sequencer.md). -/

namespace Sys2Proof.Machine

/-- `glide`: `slope <- tdiv(fx(tgt) - value, g); gl_end <- phase + g` with `g = max(glidelen, 1)` (R171). -/
def glide (q : Seq) : Res Seq :=
  andThen (accReg (tdiv (fx q.tgt - q.ramp.value.toInt) (entryLen q.glidelen))) fun slope =>
  andThen (counterReg (q.ramp.phase.toNat + entryLen q.glidelen)) fun glEnd =>
  .next { q with ramp := { q.ramp with slope := slope }, glEnd := glEnd }

/-- Whether an advance wraps: a pending reset, or the active step is the last (R170). -/
def seqWraps (q : Seq) : Bool := q.rstPending || decide (q.nSteps.toNat ≤ q.stepIdx.toNat + 1)

/-- The step an advance goes to (R170). -/
def seqNextIdx (q : Seq) : Nat := if seqWraps q then 0 else q.stepIdx.toNat + 1

/-- `advance`: enter the next step and set up its glide; the event of a wrap (R170). -/
def seqAdvance (p : Params) (q : Seq) : Res (Seq × Option Event) :=
  andThen (Memory.load p q.steps (seqNextIdx q)) fun x =>
  andThen
    (glide
      { q with
        stepIdx := BitVec.ofNat 8 (seqNextIdx q)
        rstPending := false
        ramp :=
          { q.ramp with
            phase := 0
            len := BitVec.ofNat 32 (entryLen (if q.uniformStep then q.steplen else x.len)) }
        tgt := x.val })
    fun q' => .next (q', if seqWraps q then fire .eos q.eos else none)

/-- The tick of a gated render: interpolate while `phase < gl_end`, else hold at the target; then count (R172). -/
def seqTick (q : Seq) : Res Seq :=
  andThen
    (if q.ramp.phase.toNat < q.glEnd.toNat then accReg (q.ramp.value.toInt + q.ramp.slope.toInt)
      else .next (fxReg q.tgt))
    fun value =>
  andThen (counterReg (q.ramp.phase.toNat + 1)) fun phase =>
  .next { q with ramp := { q.ramp with value := value, phase := phase }, out := clampq value }

/-- End an operation of the sequencer that returns 0 and fires nothing. -/
def seqDone (s : State) (q : Seq) : Res State := returnOk (s.withSeq q) 0 none

/-- `SEQ.RENDER` (R172). -/
def execSeqRender (s : State) : Host.Outcome State Fault Refusal :=
  if s.seq.runs then
    andThen
      (if s.seq.rstPending || s.seq.ramp.atEnd then seqAdvance s.params s.seq else .next (s.seq, none)) fun x =>
    andThen (seqTick x.1) fun q =>
    returnOk (s.withSeq q) q.out x.2
  else returnOk s s.seq.out none

/-- `SEQ.STEPLEN n` (R173). -/
def execSeqSteplen (n : Int) (s : State) : Host.Outcome State Fault Refusal :=
  seqDone s { s.seq with steplen := lenOperand n }

/-- `SEQ.GLIDE n` (R174). -/
def execSeqGlide (n : Int) (s : State) : Host.Outcome State Fault Refusal :=
  seqDone s { s.seq with glidelen := lenOperand n }

/-- The append of a step: `FULL` when the store is full, else write entry `n_steps` and count it (R66, R175). -/
def seqAppendStep (s : State) (x : Step) : Res State :=
  if s.seq.isFull s.params then raiseStatus s .full
  else
    andThen (Memory.store s.params s.seq.steps s.seq.nSteps.toNat x) fun m =>
    seqDone s { s.seq with steps := m, nSteps := s.seq.nSteps + 1 }

/-- `SEQ.APPEND v` (R175): the length stored is `steplen`. -/
def execSeqAppend (v : Int) (s : State) : Host.Outcome State Fault Refusal :=
  seqAppendStep s ⟨levelOperand v, s.seq.steplen⟩

/-- `SEQ.APPENDL v, n` (R176). -/
def execSeqAppendl (v n : Int) (s : State) : Host.Outcome State Fault Refusal :=
  seqAppendStep s ⟨levelOperand v, lenOperand n⟩

/-- The value part of a rewrite of entry `i`, which holds `x`: compare, write `val`, and re-aim the glide if the step is
active (R177). -/
def seqSetVal (p : Params) (q : Seq) (i : Nat) (x : Step) (v : Level) : Res Seq :=
  if v = x.val then .next q
  else
    andThen (Memory.store p q.steps i { x with val := v }) fun m =>
    if q.isActive i then glide { q with steps := m, tgt := v } else .next { q with steps := m }

/-- The length part of a rewrite of entry `i`, which holds `x`: compare, write `len`, and move the end of the running
step if it is active and not uniform (R178). -/
def seqSetLen (p : Params) (q : Seq) (i : Nat) (x : Step) (l : Length) : Res Seq :=
  if l = x.len then .next q
  else
    andThen (Memory.store p q.steps i { x with len := l }) fun m =>
    if q.isActive i && !q.uniformStep then
      andThen (counterReg (q.ramp.phase.toNat + remainLen p.minRecompLen q.ramp.phase l)) fun len =>
      .next { q with steps := m, ramp := { q.ramp with len := len } }
    else .next { q with steps := m }

/-- `SEQ.SETSTEP i, v` (R177): a no-op for an index outside the sequence. -/
def execSeqSetstep (i : Nat) (v : Int) (s : State) : Host.Outcome State Fault Refusal :=
  if s.seq.hasStep i then
    andThen (Memory.load s.params s.seq.steps i) fun x =>
    andThen (seqSetVal s.params s.seq i x (levelOperand v)) (seqDone s)
  else returnOk s 0 none

/-- `SEQ.SETSTEPL i, v, n` (R178): the value part, then the length part on what it left. -/
def execSeqSetstepl (i : Nat) (v n : Int) (s : State) : Host.Outcome State Fault Refusal :=
  if s.seq.hasStep i then
    andThen (Memory.load s.params s.seq.steps i) fun x =>
    andThen (seqSetVal s.params s.seq i x (levelOperand v)) fun q =>
    andThen (seqSetLen s.params q i { x with val := levelOperand v } (lenOperand n)) (seqDone s)
  else returnOk s 0 none

/-- `SEQ.CLEAR` (R179): the step store is not written (R68). -/
def execSeqClear (s : State) : Host.Outcome State Fault Refusal :=
  seqDone s { s.seq with nSteps := 0, stepIdx := 0, rstPending := true }

/-- `SEQ.GATE b` (R180). -/
def execSeqGate (b : Bool) (s : State) : Host.Outcome State Fault Refusal :=
  seqDone s { s.seq with gated := b }

/-- `SEQ.RESET` (R181). -/
def execSeqReset (s : State) : Host.Outcome State Fault Refusal :=
  seqDone s { s.seq with rstPending := true }

/-- `SEQ.HEOS h, c` (R182). -/
def execSeqHeos (h : HandlerRef) (c : Context) (s : State) : Host.Outcome State Fault Refusal :=
  seqDone s { s.seq with eos := ⟨h, c⟩ }

/-- `SEQ.NSTEPS` (R183): `zext_16(n_steps)`. -/
def execSeqNsteps (s : State) : Host.Outcome State Fault Refusal :=
  returnOk s (s.seq.nSteps.zeroExtend 16) none

/-- `SEQ.UNIFORM b` (R184). -/
def execSeqUniform (b : Bool) (s : State) : Host.Outcome State Fault Refusal :=
  seqDone s { s.seq with uniformStep := b }

end Sys2Proof.Machine
end

