-- ==== Sys2Proof/Machine/Dispatch.lean ====
section
/-! DEFINITION. One arm per operation of rule R90. -/

namespace Sys2Proof.Machine

def exec (i : Instr) (s : State) : Host.Outcome State Fault Refusal :=
  match i with
  | .envRender => Sys2Proof.Machine.execEnvRender s
  | .envAtk n => Sys2Proof.Machine.execEnvAtk n s
  | .envDec n => Sys2Proof.Machine.execEnvDec n s
  | .envSus v => Sys2Proof.Machine.execEnvSus v s
  | .envRel n => Sys2Proof.Machine.execEnvRel n s
  | .envRetrig b => Sys2Proof.Machine.execEnvRetrig b s
  | .envGate b => Sys2Proof.Machine.execEnvGate b s
  | .envHeod h c => Sys2Proof.Machine.execEnvHeod h c s
  | .envHeor h c => Sys2Proof.Machine.execEnvHeor h c s
  | .lfoRender => Sys2Proof.Machine.execLfoRender s
  | .lfoPeriod n => Sys2Proof.Machine.execLfoPeriod n s
  | .lfoDuty d => Sys2Proof.Machine.execLfoDuty d s
  | .seqRender => Sys2Proof.Machine.execSeqRender s
  | .seqSteplen n => Sys2Proof.Machine.execSeqSteplen n s
  | .seqGlide n => Sys2Proof.Machine.execSeqGlide n s
  | .seqAppend v => Sys2Proof.Machine.execSeqAppend v s
  | .seqAppendl v n => Sys2Proof.Machine.execSeqAppendl v n s
  | .seqSetstep k v => Sys2Proof.Machine.execSeqSetstep k v s
  | .seqSetstepl k v n => Sys2Proof.Machine.execSeqSetstepl k v n s
  | .seqClear => Sys2Proof.Machine.execSeqClear s
  | .seqGate b => Sys2Proof.Machine.execSeqGate b s
  | .seqReset => Sys2Proof.Machine.execSeqReset s
  | .seqHeos h c => Sys2Proof.Machine.execSeqHeos h c s
  | .seqNsteps => Sys2Proof.Machine.execSeqNsteps s
  | .seqUniform b => Sys2Proof.Machine.execSeqUniform b s

end Sys2Proof.Machine
end

