-- ==== Sys2Proof/Machine/Fetch.lean ====
section
/-! DEFINITION. How the core takes what is presented to it: a command word, an assertion of `rst`, or nothing
(rules R19, R70, R80, R91, R230). -/

namespace Sys2Proof.Machine

/-- Nothing is presented: no operation happens, so no register changes and both ports are empty (R52, R80;
DESIGN CHOICE: log entry 3). -/
def idleStep (s : State) : Res State := .next { s with rsp := none, evt := none }

/-- `rst` is asserted between operations: every register takes its reset value; the parameters are the machine's, and
what else the outside presents is not the core's (R80, R230, 93 U17). -/
def rstStep (s : State) : Res State := .next { State.resetWith s.params with inputs := s.inputs }

/-- One operation: the complete execution of one command word (R19). An illegal opcode changes no state, fires no event
and answers `ILLEGAL` (R91, R213). -/
def runCommand (w : CmdWord) (s : State) : Res State :=
  match decode w with
  | .ok i => exec i s
  | .error (.illegalOpcode _) => raiseStatus s .illegal

/-- Take the first input in the order the outside presents them (R70). -/
def takeInput (s : State) : Res State :=
  match s.inputs with
  | [] => idleStep s
  | .rst :: rest => rstStep { s with inputs := rest }
  | .cmd w :: rest => runCommand w { s with inputs := rest }

/-- The state with a command word presented ahead of everything else. -/
def presentWord (s : State) (w : CmdWord) : State := { s with inputs := .cmd w :: s.inputs }

end Sys2Proof.Machine
end

