-- ==== Sys2Proof/Machine/Step.lean ====
section
/-! DEFINITION. One step of the machine: one input taken, for a command word one operation to completion (rule R19). -/

namespace Sys2Proof.Machine

/-- The step relation of R19: a function of the state, in which the inputs stand in the order of the stream (R70). -/
def step (s : State) : Host.Outcome State Fault Refusal := takeInput s

/-- `s` with the instruction `w` (numbered as spec/opcode_table.json numbers its bits, those at or above `nbits` zero)
on the command port, where the very next step takes it. IoTMW-CORE has no instruction memory (R53): a program is the
stream of command words the outside presents (log entry 2). -/
def State.withFetchWord (s : State) (nbits w : Nat) : State := presentWord s (BitVec.ofNat 64 (w % 2 ^ nbits))

end Sys2Proof.Machine
end

