-- ==== Sys2Proof/Safety.lean ====
section
/-! DEFINITION. What holds in every state a run reaches: the invariants the spec states (rules R29, R35, R37, R48, R50,
R110), and the premise under which no counter can overflow in one step (R112). -/

namespace Sys2Proof.Machine

/-- The largest accumulator value, `fx(LEV_MAX)` (R100). -/
def fxMax : Int := 267386880

/-- `fx(LEV_MIN) <= x <= fx(LEV_MAX)` (R29 e, R110). -/
abbrev InRange (x : Int) : Prop := 0 ≤ x ∧ x ≤ fxMax

/-- The accumulator `k` ticks from now if the slope stays: `value + k * slope` (R110). -/
def Ramp.after (r : Ramp) (k : Int) : Int := r.value.toInt + k * r.slope.toInt

/-- Less than one level apart (R111). -/
abbrev WithinOneLevel (x y : Int) : Prop := x - y < one ∧ y - x < one

/-- A ramp running toward `t`: `phase <= len`, at most `LEN_MAX` ticks remain, the accumulator is in range now and at the
end of the ramp, so at every tick between, and it ends less than one level from `t` (R29 c, R37, R110, R111, R112). -/
abbrev Ramp.RunsTo (r : Ramp) (t : Int) : Prop :=
  r.phase.toNat ≤ r.len.toNat ∧ r.len.toNat ≤ r.phase.toNat + lenMax ∧ InRange r.value.toInt ∧
    InRange (r.after ((r.len.toNat : Int) - r.phase.toNat)) ∧
    WithinOneLevel t (r.after ((r.len.toNat : Int) - r.phase.toNat))

/-- A hold state at level `l`: `phase = 0`, `len = 0`, `slope = 0`, `value = fx(l)` (R29 d). -/
abbrev Ramp.HoldsAt (r : Ramp) (l : Level) : Prop := r = { value := fxReg l, slope := 0, phase := 0, len := 0 }

/-- An `out` register is in `[0, 255]` (R28, R36, R49). -/
abbrev OutLegal (o : OutWord) : Prop := o.toNat ≤ 255

/-- The invariants of `ENV` (R28, R29). -/
abbrev EnvInv (e : Env) : Prop :=
  OutLegal e.out ∧
    match e.state with
    | .idle => e.ramp.HoldsAt levMin
    | .sustain => e.ramp.HoldsAt e.susLev
    | .attack => e.ramp.RunsTo (fx levMax)
    | .decay => e.ramp.RunsTo (fx e.susLev)
    | .sustainAdjust => e.ramp.RunsTo (fx e.susLev)
    | .release => e.ramp.RunsTo (fx levMin)

/-- The invariants of `LFO` (R35, R36, R37). -/
abbrev LfoInv (l : Lfo) : Prop :=
  OutLegal l.out ∧ l.ramp.RunsTo (lfoTarget l.state) ∧ l.lenIncline = inclineLen l.period l.duty ∧
    l.lenDecline = declineLen l.period l.duty

/-- The glide in progress keeps the accumulator in range to its end, less than one level from `tgt`
(R110, R111, R171). -/
abbrev Seq.GlideRuns (q : Seq) : Prop :=
  q.ramp.phase.toNat < q.glEnd.toNat →
    InRange (q.ramp.after ((q.glEnd.toNat : Int) - q.ramp.phase.toNat)) ∧
      WithinOneLevel (fx q.tgt) (q.ramp.after ((q.glEnd.toNat : Int) - q.ramp.phase.toNat))

/-- `tgt = steps[step_idx].val` while a step is active (R48). -/
abbrev Seq.TargetLatched (q : Seq) : Prop :=
  q.rstPending = false → 0 < q.nSteps.toNat → (Memory.read q.steps q.stepIdx.toNat).map Step.val = some q.tgt

/-- The invariants of the step store: canonical, inside the capacity, and every entry of the sequence has been written
(R50, R60, R67). -/
abbrev StoreInv (p : Params) (q : Seq) : Prop :=
  Memory.wf q.steps = true ∧ Memory.within p.seqCap q.steps = true ∧ q.nSteps.toNat ≤ p.seqCap ∧
    ∀ i, i < q.nSteps.toNat → (Memory.read q.steps i).isSome = true

/-- The invariants of `SEQ` (R41, R48, R49, R50); an empty sequence has a reset pending (R51, R175, R179). -/
abbrev SeqInv (p : Params) (q : Seq) : Prop :=
  OutLegal q.out ∧ StoreInv p q ∧ (0 < q.nSteps.toNat → q.stepIdx.toNat < q.nSteps.toNat) ∧
    (q.nSteps.toNat = 0 → q.stepIdx.toNat = 0 ∧ q.rstPending = true) ∧ q.ramp.phase.toNat ≤ q.ramp.len.toNat ∧
    InRange q.ramp.value.toInt ∧ q.GlideRuns ∧ q.TargetLatched

/-- The invariant of the machine: legal parameters (R10, R13) and the invariants of the three units. -/
abbrev Inv (s : State) : Prop := s.params.Legal ∧ EnvInv s.env ∧ LfoInv s.lfo ∧ SeqInv s.params s.seq

/-- Every phase is at least `LEN_MAX` below the end of its register, so no write of `len` or `gl_end` overflows:
"whenever `len` or `gl_end` is written it is at most `phase + LEN_MAX`" (R112, 93 U3). -/
abbrev CounterRoom (s : State) : Prop :=
  s.env.ramp.phase.toNat + lenMax < counterSize ∧ s.lfo.ramp.phase.toNat + lenMax < counterSize ∧
    s.seq.ramp.phase.toNat + lenMax < counterSize

/-- A safe outcome of a step: a next state, neither a fault nor a refusal. -/
abbrev Proceeds (o : Host.Outcome State Fault Refusal) : Prop := ∃ t, o = .next t

end Sys2Proof.Machine
end

