-- ==== Sys2Proof/Certificates/Slice0/Obligations.lean ====
section
/-! DEFINITION. The statements about the model, from the numbered rules of spec/. The vocabulary below says what a rule
says in the numbers of Lean's core library (`Int.tdiv`, `max`, `min`), not in the model's own functions. -/

open Sys2Proof Sys2Proof.Machine

namespace Sys2Proof.Claims

/-- `clamp(x, lo, hi)` for `lo <= hi` (R17). -/
def clamped (x lo hi : Int) : Int := max lo (min x hi)

/-- `LEN(B)` of a signed operand (R82). -/
def lenOf (n : Int) : Int := clamped n 0 1048575

/-- `LEVEL(A)` of a signed operand (R83). -/
def levelOf (v : Int) : Int := clamped v 0 255

/-- `DUTY(B)` of a signed operand (R85). -/
def dutyOf (d : Int) : Int := clamped d 0 65536

/-- `fx(L) = L * 2^20` (R100). -/
def levelFx (l : Int) : Int := l * 1048576

/-- `entry_len(L) = max(L, 1)` (R103). -/
def entryTicks (l : Int) : Int := max l 1

/-- `remain_len(L) = max(L - phase, MIN_RECOMP_LEN)` (R104). -/
def remainTicks (p : Params) (phase : Counter) (l : Int) : Int := max (l - phase.toNat) p.minRecompLen

/-- The counter can hold `phase + n` (R112). -/
def Fits (phase : Counter) (n : Int) : Prop := (phase.toNat : Int) + n < 4294967296

/-- `r'` is `r` after `ramp_to(t, n)` (R101, R102). -/
def RampedTo (r r' : Ramp) (t n : Int) : Prop :=
  r'.value = r.value ∧ r'.phase = r.phase ∧ r'.slope.toInt = Int.tdiv (t - r.value.toInt) n ∧
    (r'.len.toNat : Int) = r.phase.toNat + n

/-- `r'` is `r` after the entry of a state, `phase <- 0; ramp_to(t, n)` (R102, R121). -/
def Entered (r r' : Ramp) (t n : Int) : Prop :=
  r'.value = r.value ∧ r'.phase.toNat = 0 ∧ r'.slope.toInt = Int.tdiv (t - r.value.toInt) n ∧ (r'.len.toNat : Int) = n

/-- `r'` is `r` after a tick that enters a state and makes its first accumulation (R108). -/
def FirstTick (r r' : Ramp) (t n : Int) : Prop :=
  r'.slope.toInt = Int.tdiv (t - r.value.toInt) n ∧ r'.value.toInt = r.value.toInt + r'.slope.toInt ∧
    r'.phase.toNat = 1 ∧ (r'.len.toNat : Int) = n

/-- `r'` is `r` after `accumulate` (R105). -/
def Ticked (r r' : Ramp) : Prop :=
  r'.value.toInt = r.value.toInt + r.slope.toInt ∧ r'.phase.toNat = r.phase.toNat + 1 ∧ r'.slope = r.slope ∧
    r'.len = r.len

/-- `r'` holds at level `l`: `phase`, `len`, `slope` 0 and `value = fx(l)` (R121). -/
def HeldAt (r' : Ramp) (l : Int) : Prop :=
  r'.value.toInt = levelFx l ∧ r'.slope.toInt = 0 ∧ r'.phase.toNat = 0 ∧ r'.len.toNat = 0

/-- `out` is `clampq(value)`: `floor((v + 2^19) / 2^20)` clamped to `[0, 255]` (R106). -/
def QuantizedFrom (o : OutWord) (v : Acc) : Prop := (o.toNat : Int) = clamped ((v.toInt + 524288) / 1048576) 0 255

/-- The event of a slot: none when its handler is 0 (R89, R216). -/
def slotEvent (src : EventSrc) (slot : Slot) : Option Event :=
  if slot.handler = 0 then none else some { src := src, handler := slot.handler, ctx := slot.ctx }

/-- The response `OK` with data `d` (R88). -/
def okWith (d : OutWord) : Option Response := some { status := .ok, data := d }

/-- `s` after an operation that changes no register and answers `OK`, 0. -/
def acknowledged (s : State) : State := { s with rsp := okWith 0, evt := none }

/-- The opcode of a word lies in one of the 231 illegal ones (R91). -/
def IllegalOp (w : CmdWord) : Prop :=
  (opField w).toNat ≤ 0x0F ∨ (0x19 ≤ (opField w).toNat ∧ (opField w).toNat ≤ 0x1F) ∨
    (0x23 ≤ (opField w).toNat ∧ (opField w).toNat ≤ 0x2F) ∨ 0x3D ≤ (opField w).toNat

/-- The opcodes that read `IDX`, `A` and `B` (R90). -/
def opsReadingIdx : List Nat := [0x35, 0x36]
def opsReadingA : List Nat := [0x13, 0x15, 0x16, 0x17, 0x18, 0x33, 0x34, 0x35, 0x36, 0x38, 0x3A, 0x3C]
def opsReadingB : List Nat := [0x11, 0x12, 0x14, 0x17, 0x18, 0x21, 0x22, 0x31, 0x32, 0x34, 0x36, 0x3A]

/-- The unit an operation belongs to, the high half of its opcode (R81). -/
inductive Unit3 where
  | env
  | lfo
  | seq
deriving DecidableEq, Repr

def unitOf (i : Instr) : Unit3 :=
  match (opField (encode i)).toNat / 16 with
  | 1 => .env
  | 2 => .lfo
  | _ => .seq

/-- `accumulate` `k` times (R105). -/
def accumulateTimes : Nat → Ramp → Host.Outcome Ramp Fault Refusal
  | 0, r => .next r
  | k + 1, r =>
    match accumulate r with
    | .next r' => accumulateTimes k r'
    | .fault f => .fault f
    | .refused f => .refused f

/-- `ENV.RENDER` `k` times. -/
def renderTimes : Nat → State → Host.Outcome State Fault Refusal
  | 0, s => .next s
  | k + 1, s =>
    match renderTimes k s with
    | .next s' => exec .envRender s'
    | .fault f => .fault f
    | .refused f => .refused f

/-- What an `ENV` length setter does (R109, R123, R124, R126): `op` writes the length register `reg`, and when its
state `st` is active recomputes the running ramp toward `target`. -/
def EnvLengthSetter (op : Int → Instr) (reg : Env → Length) (put : Env → Length → Ramp → Env) (st : EnvState)
    (target : Env → Int) : Prop :=
  ∀ (s : State) (n : Int), Inv s →
    (lenOf n ≠ (reg s.env).toNat → s.env.state = st →
      Fits s.env.ramp.phase (remainTicks s.params s.env.ramp.phase (lenOf n))) →
    ∃ (l : Length) (r : Ramp),
      exec (op n) s = .next { s with env := put s.env l r, rsp := okWith 0, evt := none } ∧ (l.toNat : Int) = lenOf n ∧
        if lenOf n ≠ (reg s.env).toNat ∧ s.env.state = st then
          RampedTo s.env.ramp r (target s.env) (remainTicks s.params s.env.ramp.phase (lenOf n))
        else r = s.env.ramp

/-- What an append of a step does (R66, R175, R176): `op` stores `val`, `len` at entry `n_steps` and counts it, or
answers `FULL`. -/
def AppendsStep (op : Instr) (s : State) (val len : Int) : Prop :=
  (s.params.seqCap ≤ s.seq.nSteps.toNat →
    exec op s = .next { s with rsp := some { status := .full, data := 0 }, evt := none }) ∧
  (Inv s → s.seq.nSteps.toNat < s.params.seqCap →
    ∃ (m : Memory) (c : BitVec 9) (x : Step),
      exec op s = .next { s with seq := { s.seq with steps := m, nSteps := c }, rsp := okWith 0, evt := none } ∧
        c.toNat = s.seq.nSteps.toNat + 1 ∧ (x.val.toNat : Int) = val ∧ (x.len.toNat : Int) = len ∧
          ∀ a, Memory.read m a = if a = s.seq.nSteps.toNat then some x else Memory.read s.seq.steps a)

end Sys2Proof.Claims

open Sys2Proof.Claims

/-! ## Encoding -/

/-- Words written out from the encodings and examples of the spec (30_encoding R90, R94; 95 A4, S1, S3). -/
def Obligations.SampleWordsDecode : Prop :=
  decode 0x1000000000000000 = .ok .envRender ∧ decode 0x11000000FFFFFFFF = .ok (.envAtk (-1)) ∧
  decode 0x1300FFFB00000000 = .ok (.envSus (-5)) ∧ decode 0x1500FFFF00000000 = .ok (.envRetrig true) ∧
  decode 0x1700000D00000111 = .ok (.envHeod 0x000D 0x00000111) ∧ decode 0x2000000000000000 = .ok .lfoRender ∧
  decode 0x2200000000011170 = .ok (.lfoDuty 70000) ∧ decode 0x360100FF00000002 = .ok (.seqSetstepl 1 255 2) ∧
  decode 0x34000008FFFFFFFF = .ok (.seqAppendl 8 (-1)) ∧ decode 0x3A00000700000ABC = .ok (.seqHeos 0x0007 0x00000ABC)

/-- Decoding the canonical word of a well-formed operation gives it back, with every operand at every value its field
admits (R81, R90, R94). -/
def Obligations.EncodeThenDecodeIsIdentity : Prop := ∀ i : Instr, i.wellFormed = true → decode (encode i) = .ok i

/-- Every decoded operation is well-formed: its operands are in the ranges of R82 to R86. -/
def Obligations.DecodedOperandsAreInRange : Prop :=
  ∀ (w : CmdWord) (i : Instr), decode w = .ok i → i.wellFormed = true

/-- A word is refused by the decoder exactly when its opcode is one of the 231 illegal ones (R90, R91). -/
def Obligations.DecoderRejectsExactlyTheIllegalOpcodes : Prop :=
  ∀ w : CmdWord, decode w = .error (.illegalOpcode (opField w)) ↔ IllegalOp w

/-- Any bit pattern in a field the operation does not list selects the same operation with the same effect: the two words
decode alike, and from every state, before whatever else is presented, the steps on them are equal (R92). -/
def Obligations.IgnoredFieldsDoNotMatter : Prop :=
  ∀ w w' : CmdWord, opField w = opField w' →
    ((opField w).toNat ∈ opsReadingIdx → idxField w = idxField w') →
    ((opField w).toNat ∈ opsReadingA → aField w = aField w') →
    ((opField w).toNat ∈ opsReadingB → bField w = bField w') →
    decode w = decode w' ∧
      ∀ (s : State) (rest : List Input),
        step { s with inputs := .cmd w :: rest } = step { s with inputs := .cmd w' :: rest }

/-- The bit layout of the response and event words (R88, R89, R211, R215). -/
def Obligations.PortWordLayout : Prop :=
  (∀ d : OutWord, ({ status := .ok, data := d } : Response).word.toNat = d.toNat ∧
    ({ status := .full, data := d } : Response).word.toNat = 65536 + d.toNat ∧
    ({ status := .illegal, data := d } : Response).word.toNat = 131072 + d.toNat) ∧
  ∀ (h : HandlerRef) (c : Context),
    ({ src := .eod, handler := h, ctx := c } : Event).word.toNat = 281474976710656 + h.toNat * 4294967296 + c.toNat ∧
    ({ src := .eor, handler := h, ctx := c } : Event).word.toNat = 562949953421312 + h.toNat * 4294967296 + c.toNat ∧
    ({ src := .eos, handler := h, ctx := c } : Event).word.toNat = 844424930131968 + h.toNat * 4294967296 + c.toNat

/-! ## The step -/

/-- A step whose first input is a word that decodes to an operation runs that operation (R19, R70). -/
def Obligations.StepRunsTheDecodedOperation : Prop :=
  ∀ (s : State) (w : CmdWord) (rest : List Input) (i : Instr), s.inputs = .cmd w :: rest → decode w = .ok i →
    step s = exec i { s with inputs := rest }

/-- A command word with an illegal opcode changes no state, fires no event and returns `ILLEGAL`, 0 (R91, R213). -/
def Obligations.IllegalOpcodeChangesNothing : Prop :=
  ∀ (s : State) (w : CmdWord) (rest : List Input), s.inputs = .cmd w :: rest → IllegalOp w →
    step s = .next { s with inputs := rest, rsp := some { status := .illegal, data := 0 }, evt := none }

/-- Asserting `rst` puts every unit in its reset state, whatever the state (R80, R230). That the ports are empty after it
and the rest of the inputs stays is the model's choice (log entries 2, 4), and so is that the step store lists no entry
(log entry 5: R51 and R230 leave its content unspecified). -/
def Obligations.ResetInputRestoresTheResetState : Prop :=
  ∀ (s : State) (rest : List Input), s.inputs = .rst :: rest →
    step s = .next { State.resetWith s.params with inputs := rest }

/-- With nothing presented no register changes and the ports are empty: the model's choice (log entry 3). -/
def Obligations.IdleStepChangesNoRegister : Prop :=
  ∀ s : State, s.inputs = [] → step s = .next { s with rsp := none, evt := none }

/-! ## Reset -/

/-- `ENV` after reset (R30), for every choice of the OPEN parameters. -/
def Obligations.EnvelopeAfterReset : Prop :=
  ∀ p : Params, (State.resetWith p).env =
    { state := .idle, ramp := { value := 0, slope := 0, phase := 0, len := 0 }, atkLen := p.rstAtkLen,
      decLen := p.rstDecLen, relLen := p.rstRelLen, susLev := p.rstSusLev, retrigger := false,
      eod := { handler := 0, ctx := 0 }, eor := { handler := 0, ctx := 0 }, out := 0 }

/-- `LFO` after reset (R38), with the derived lengths of R35, for every choice of the OPEN parameters. -/
def Obligations.OscillatorAfterReset : Prop :=
  ∀ p : Params, ∃ l : Lfo, (State.resetWith p).lfo = l ∧ l.state = .incline ∧ l.period = p.rstPeriod ∧
    l.duty = p.rstDuty ∧ l.out = 0 ∧ l.lenIncline.toNat = p.rstPeriod.toNat * p.rstDuty.val / 65536 ∧
    l.lenDecline.toNat = p.rstPeriod.toNat * (65536 - p.rstDuty.val) / 65536 ∧
    l.ramp.value = 0 ∧ Entered { value := 0, slope := 0, phase := 0, len := 0 } l.ramp 267386880
      (entryTicks l.lenIncline.toNat)

/-- `SEQ` after reset (R51), for every choice of the OPEN parameters; the content of the step store is left open, as R51
leaves it. -/
def Obligations.SequencerAfterReset : Prop :=
  ∀ p : Params, ∃ m : Memory, (State.resetWith p).seq =
    { steps := m, nSteps := 0, stepIdx := 0, uniformStep := false, steplen := p.rstSteplen, glidelen := p.rstGlidelen,
      gated := false, eos := { handler := 0, ctx := 0 }, ramp := { value := 0, slope := 0, phase := 0, len := 0 },
      tgt := 0, glEnd := 0, rstPending := true, out := 0 }

/-- The invariant holds after reset, for every legal choice of the OPEN parameters (R29, R37, R50). -/
def Obligations.ResetMeetsTheInvariant : Prop :=
  (∀ p : Params, p.Legal → Inv (State.resetWith p)) ∧ Inv State.reset

/-! ## Whole-machine rules -/

/-- Every step keeps the invariant of the machine (R29, R35, R37, R48, R50, R110). -/
def Obligations.EveryStepKeepsTheInvariant : Prop := ∀ s t : State, Inv s → step s = .next t → Inv t

/-- "No operation of any unit stops the core" (R210): from a state that meets the invariant, with room in the counters
(R112), every step gives a next state, whatever is presented. That a step with nothing presented is among them is the
model's choice (log entry 3). -/
def Obligations.NoInputStopsTheCore : Prop := ∀ s : State, Inv s → CounterRoom s → ∃ t, step s = .next t

/-- Every step keeps the parameters: they are arguments of the model, not state (R55; log entry 1). -/
def Obligations.NoStepChangesTheParameters : Prop := ∀ s t : State, step s = .next t → t.params = s.params

/-- An operation of one unit reads and writes no register of another (R20): it leaves the other units as they are, and
its effect, response and event depend only on its own unit's registers and the parameters. -/
def Obligations.UnitsAreIndependent : Prop :=
  ∀ (i : Instr) (s s' t : State), s.params = s'.params → exec i s = .next t →
    (unitOf i = .env → t.lfo = s.lfo ∧ t.seq = s.seq ∧
      (s.env = s'.env → ∃ t', exec i s' = .next t' ∧ t'.env = t.env ∧ t'.rsp = t.rsp ∧ t'.evt = t.evt)) ∧
    (unitOf i = .lfo → t.env = s.env ∧ t.seq = s.seq ∧
      (s.lfo = s'.lfo → ∃ t', exec i s' = .next t' ∧ t'.lfo = t.lfo ∧ t'.rsp = t.rsp ∧ t'.evt = t.evt)) ∧
    (unitOf i = .seq → t.env = s.env ∧ t.lfo = s.lfo ∧
      (s.seq = s'.seq → ∃ t', exec i s' = .next t' ∧ t'.seq = t.seq ∧ t'.rsp = t.rsp ∧ t'.evt = t.evt))

/-- The complete transition table of the envelope (R120): the state after every operation of any unit, and the event of
every operation of the envelope; "No other transition exists". -/
def Obligations.EnvelopeTransitionTable : Prop :=
  ∀ (i : Instr) (s t : State), exec i s = .next t →
    (t.env.state =
      match i with
      | .envGate true => .attack
      | .envGate false => .release
      | .envSus v =>
        if s.env.state = .sustain ∧ levelOf v ≠ s.env.susLev.toNat then .sustainAdjust else s.env.state
      | .envRender =>
        if s.env.ramp.len.toNat ≤ s.env.ramp.phase.toNat then
          match s.env.state with
          | .attack => .decay
          | .decay => if s.env.retrigger then .attack else .sustain
          | .sustainAdjust => .sustain
          | .release => .idle
          | .idle => .idle
          | .sustain => .sustain
        else s.env.state
      | _ => s.env.state) ∧
    (unitOf i = .env →
      t.evt =
        if i = .envRender ∧ s.env.ramp.len.toNat ≤ s.env.ramp.phase.toNat then
          match s.env.state with
          | .decay => slotEvent .eod s.env.eod
          | .release => slotEvent .eor s.env.eor
          | _ => none
        else none)

/-- The only transitions of the oscillator are Incline to Decline and back, both on `phase >= len` at a render (R150). -/
def Obligations.OscillatorFlipsOnlyAtTheEndOfARamp : Prop :=
  ∀ (i : Instr) (s t : State), exec i s = .next t →
    t.lfo.state =
      if i = .lfoRender ∧ s.lfo.ramp.len.toNat ≤ s.lfo.ramp.phase.toNat then
        match s.lfo.state with
        | .incline => .decline
        | .decline => .incline
      else s.lfo.state

/-- The registers of `ENV` are written only by the operations the spec names (R22 to R28, R132): the length setters reach the
ramp only in the matching state, and `ENV.SUS` writes `state` and `phase` only on the entry to SustainAdjust. -/
def Obligations.EnvelopeRegistersWrittenOnlyByTheirOperations : Prop :=
  ∀ (i : Instr) (s t : State), exec i s = .next t →
    (t.env.atkLen ≠ s.env.atkLen → ∃ n, i = .envAtk n) ∧ (t.env.decLen ≠ s.env.decLen → ∃ n, i = .envDec n) ∧
    (t.env.relLen ≠ s.env.relLen → ∃ n, i = .envRel n) ∧ (t.env.susLev ≠ s.env.susLev → ∃ v, i = .envSus v) ∧
    (t.env.retrigger ≠ s.env.retrigger → ∃ b, i = .envRetrig b) ∧ (t.env.eod ≠ s.env.eod → ∃ h c, i = .envHeod h c) ∧
    (t.env.eor ≠ s.env.eor → ∃ h c, i = .envHeor h c) ∧ (t.env.out ≠ s.env.out → i = .envRender) ∧
    (t.env.ramp.value ≠ s.env.ramp.value → i = .envRender) ∧
    (t.env.state ≠ s.env.state → i = .envRender ∨ (∃ b, i = .envGate b) ∨ ∃ v, i = .envSus v ∧ s.env.state = .sustain) ∧
    (t.env.ramp.phase ≠ s.env.ramp.phase →
      i = .envRender ∨ (∃ b, i = .envGate b) ∨ ∃ v, i = .envSus v ∧ s.env.state = .sustain) ∧
    (t.env.ramp.slope ≠ s.env.ramp.slope ∨ t.env.ramp.len ≠ s.env.ramp.len →
      i = .envRender ∨ (∃ b, i = .envGate b) ∨ (∃ n, i = .envAtk n ∧ s.env.state = .attack) ∨
        (∃ n, i = .envDec n ∧ s.env.state = .decay) ∨ (∃ n, i = .envRel n ∧ s.env.state = .release) ∨
        ∃ v, i = .envSus v ∧ (s.env.state = .decay ∨ s.env.state = .sustain ∨ s.env.state = .sustainAdjust))

/-- The registers of `LFO` are written only by the operations the spec names (R31 to R36). -/
def Obligations.OscillatorRegistersWrittenOnlyByTheirOperations : Prop :=
  ∀ (i : Instr) (s t : State), exec i s = .next t →
    (t.lfo.period ≠ s.lfo.period → ∃ n, i = .lfoPeriod n) ∧ (t.lfo.duty ≠ s.lfo.duty → ∃ d, i = .lfoDuty d) ∧
    (t.lfo.out ≠ s.lfo.out → i = .lfoRender) ∧ (t.lfo.ramp.value ≠ s.lfo.ramp.value → i = .lfoRender) ∧
    (t.lfo.ramp.phase ≠ s.lfo.ramp.phase → i = .lfoRender) ∧ (t.lfo.state ≠ s.lfo.state → i = .lfoRender) ∧
    (t.lfo.ramp.slope ≠ s.lfo.ramp.slope ∨ t.lfo.ramp.len ≠ s.lfo.ramp.len →
      i = .lfoRender ∨ (∃ n, i = .lfoPeriod n) ∨ ∃ d, i = .lfoDuty d) ∧
    (t.lfo.lenIncline ≠ s.lfo.lenIncline ∨ t.lfo.lenDecline ≠ s.lfo.lenDecline →
      (∃ n, i = .lfoPeriod n) ∨ ∃ d, i = .lfoDuty d)

/-- The registers of `SEQ` are written only by the operations the spec names (R40 to R49, R172, R178); its step store has a
statement of its own, the next one. -/
def Obligations.SequencerRegistersWrittenOnlyByTheirOperations : Prop :=
  ∀ (i : Instr) (s t : State), exec i s = .next t →
    (t.seq.nSteps ≠ s.seq.nSteps → (∃ v, i = .seqAppend v) ∨ (∃ v n, i = .seqAppendl v n) ∨ i = .seqClear) ∧
    (t.seq.stepIdx ≠ s.seq.stepIdx → i = .seqRender ∨ i = .seqClear) ∧
    (t.seq.uniformStep ≠ s.seq.uniformStep → ∃ b, i = .seqUniform b) ∧
    (t.seq.steplen ≠ s.seq.steplen → ∃ n, i = .seqSteplen n) ∧
    (t.seq.glidelen ≠ s.seq.glidelen → ∃ n, i = .seqGlide n) ∧ (t.seq.gated ≠ s.seq.gated → ∃ b, i = .seqGate b) ∧
    (t.seq.eos ≠ s.seq.eos → ∃ h c, i = .seqHeos h c) ∧
    (t.seq.out ≠ s.seq.out → i = .seqRender ∧ s.seq.gated = true ∧ 0 < s.seq.nSteps.toNat) ∧
    (t.seq.ramp.value ≠ s.seq.ramp.value → i = .seqRender) ∧ (t.seq.ramp.phase ≠ s.seq.ramp.phase → i = .seqRender) ∧
    (t.seq.ramp.slope ≠ s.seq.ramp.slope ∨ t.seq.tgt ≠ s.seq.tgt ∨ t.seq.glEnd ≠ s.seq.glEnd →
      i = .seqRender ∨ (∃ k v, i = .seqSetstep k v) ∨ ∃ k v n, i = .seqSetstepl k v n) ∧
    (t.seq.ramp.len ≠ s.seq.ramp.len → i = .seqRender ∨ ∃ k v n, i = .seqSetstepl k v n) ∧
    (t.seq.rstPending ≠ s.seq.rstPending → i = .seqRender ∨ i = .seqReset ∨ i = .seqClear)

/-- The step store is written only by the two appends, at entry `n_steps`, and by the two rewrites, at an entry `IDX` of
the sequence; every other operation leaves every entry as it is (R62, R65, R66, R68). -/
def Obligations.StoreIsWrittenOnlyAtTheAddressedEntry : Prop :=
  ∀ (i : Instr) (s t : State), exec i s = .next t → ∀ a : Nat,
    Memory.read t.seq.steps a ≠ Memory.read s.seq.steps a →
      match i with
      | .seqAppend _ => a = s.seq.nSteps.toNat ∧ a < s.params.seqCap
      | .seqAppendl _ _ => a = s.seq.nSteps.toNat ∧ a < s.params.seqCap
      | .seqSetstep k _ => a = k ∧ k < s.seq.nSteps.toNat
      | .seqSetstepl k _ _ => a = k ∧ k < s.seq.nSteps.toNat
      | _ => False

/-- One response per operation: its status is `OK` unless an append finds the store full, and its data is the unit's `out`
after a render, `n_steps` for `SEQ.NSTEPS`, and 0 otherwise (R88, R210, R211). -/
def Obligations.EveryOperationAnswersItsResponse : Prop :=
  ∀ (i : Instr) (s t : State), exec i s = .next t →
    t.rsp =
      match i with
      | .envRender => okWith t.env.out
      | .lfoRender => okWith t.lfo.out
      | .seqRender => okWith t.seq.out
      | .seqNsteps => okWith (s.seq.nSteps.zeroExtend 16)
      | .seqAppend _ =>
        if s.params.seqCap ≤ s.seq.nSteps.toNat then some { status := .full, data := 0 } else okWith 0
      | .seqAppendl _ _ =>
        if s.params.seqCap ≤ s.seq.nSteps.toNat then some { status := .full, data := 0 } else okWith 0
      | _ => okWith 0

/-- An event is emitted only by `ENV.RENDER` at the end of Decay or of Release, and by `SEQ.RENDER` at an advance that
wraps or is forced by a pending reset; it carries the slot's content, and none is emitted when the handler is 0 (R89,
R215, R216, R218). -/
def Obligations.EventsFireExactlyAtTheirRenders : Prop :=
  (∀ (i : Instr) (s t : State), exec i s = .next t →
    t.evt =
      match i with
      | .envRender =>
        if s.env.ramp.len.toNat ≤ s.env.ramp.phase.toNat then
          match s.env.state with
          | .decay => slotEvent .eod s.env.eod
          | .release => slotEvent .eor s.env.eor
          | _ => none
        else none
      | .seqRender =>
        if s.seq.gated = true ∧ 0 < s.seq.nSteps.toNat ∧
            (s.seq.rstPending = true ∨
              (s.seq.ramp.len.toNat ≤ s.seq.ramp.phase.toNat ∧ s.seq.nSteps.toNat ≤ s.seq.stepIdx.toNat + 1)) then
          slotEvent .eos s.seq.eos
        else none
      | _ => none) ∧
  ∀ s t : State, step s = .next t → t.evt ≠ none →
    ∃ (w : CmdWord) (rest : List Input), s.inputs = .cmd w :: rest ∧ (decode w = .ok .envRender ∨ decode w = .ok .seqRender)

/-- A setter called with the register's current value changes no state (R109). -/
def Obligations.SetterWithTheCurrentValueIsANoOp : Prop :=
  ∀ (s : State) (x : Int),
    (lenOf x = s.env.atkLen.toNat → exec (.envAtk x) s = .next (acknowledged s)) ∧
    (lenOf x = s.env.decLen.toNat → exec (.envDec x) s = .next (acknowledged s)) ∧
    (lenOf x = s.env.relLen.toNat → exec (.envRel x) s = .next (acknowledged s)) ∧
    (levelOf x = s.env.susLev.toNat → exec (.envSus x) s = .next (acknowledged s)) ∧
    (lenOf x = s.lfo.period.toNat → exec (.lfoPeriod x) s = .next (acknowledged s)) ∧
    (dutyOf x = s.lfo.duty.val → exec (.lfoDuty x) s = .next (acknowledged s)) ∧
    (lenOf x = s.seq.steplen.toNat → exec (.seqSteplen x) s = .next (acknowledged s)) ∧
    (lenOf x = s.seq.glidelen.toNat → exec (.seqGlide x) s = .next (acknowledged s))

/-- Past `2^32 - 1` the model refuses, as R112 asks: a live attack change whose new end does not fit `len` gives no next
state. -/
def Obligations.CounterOverflowIsRefused : Prop :=
  ∀ (s : State) (n : Int), Inv s → s.env.state = .attack → lenOf n ≠ s.env.atkLen.toNat →
    ¬ Fits s.env.ramp.phase (remainTicks s.params s.env.ramp.phase (lenOf n)) →
    exec (.envAtk n) s = .refused .counterOverflow

/-! ## Shared arithmetic -/

/-- `tdiv` is the exact quotient rounded toward zero, with its error bound (R101). -/
def Obligations.SlopeDivisionRoundsTowardZero : Prop :=
  ∀ (a : Int) (n : Nat), 1 ≤ n →
    tdiv a n = Int.tdiv a n ∧ |a| - n < n * |tdiv a n| ∧ n * |tdiv a n| ≤ |a| ∧
      (0 ≤ a → tdiv a n = a / n) ∧ (a < 0 → tdiv a n = -(-a / n))

/-- The quantizer rounds to nearest with halves up, clamps to `[0, 255]` and is monotone, for every 32-bit accumulator
(R106, R107, R114). -/
def Obligations.QuantizerRoundsHalfUpAndClamps : Prop :=
  (∀ v : Acc, QuantizedFrom (clampq v) v ∧ (clampq v).toNat ≤ 255 ∧
    (InRange v.toInt → (2 * ((clampq v).toNat : Int) - 1) * 524288 ≤ v.toInt ∧
      v.toInt < (2 * ((clampq v).toNat : Int) + 1) * 524288)) ∧
  (∀ v w : Acc, v.toInt ≤ w.toInt → (clampq v).toNat ≤ (clampq w).toNat) ∧
  ∀ l : Level, (clampq (fxReg l)).toNat = l.toNat

/-- The derived lengths of the oscillator: each its own floor, their sum the period or one less, equal to it when
`period * duty` is a multiple of 65536 (R35). -/
def Obligations.DerivedLengthsSumToThePeriod : Prop :=
  ∀ (p : Length) (d : Duty),
    (inclineLen p d).toNat = p.toNat * d.val / 65536 ∧ (declineLen p d).toNat = p.toNat * (65536 - d.val) / 65536 ∧
    p.toNat ≤ (inclineLen p d).toNat + (declineLen p d).toNat + 1 ∧
    (inclineLen p d).toNat + (declineLen p d).toNat ≤ p.toNat ∧
    (p.toNat * d.val % 65536 = 0 → (inclineLen p d).toNat + (declineLen p d).toNat = p.toNat)

/-- A ramp never overshoots: after `ramp_to(t, n)` from an accumulator in range toward a target in range, each of the next
`n` accumulations completes, and after `k` of them the accumulator is `v0 + k * tdiv(t - v0, n)`, between `v0` and `t`
(R102, R105, R110). -/
def Obligations.RampNeverOvershoots : Prop :=
  ∀ (r : Ramp) (t : Int) (n : Nat), InRange r.value.toInt → InRange t → 1 ≤ n → Fits r.phase n →
    ∃ r0, rampTo r t n = .next r0 ∧
      ∀ k : Nat, k ≤ n → ∃ rk, accumulateTimes k r0 = .next rk ∧
        rk.value.toInt = r.value.toInt + k * Int.tdiv (t - r.value.toInt) n ∧ rk.phase.toNat = r.phase.toNat + k ∧
        rk.slope = r0.slope ∧ rk.len = r0.len ∧ min r.value.toInt t ≤ rk.value.toInt ∧
        rk.value.toInt ≤ max r.value.toInt t

/-- The end-point error of a ramp: after exactly `n` accumulations it is `abs(t - v0) mod n`, on the starting side of the
target, and less than one level (R111). -/
def Obligations.RampEndsWithinOneLevelOfItsTarget : Prop :=
  ∀ (r r0 rn : Ramp) (t : Int) (n : Nat), InRange r.value.toInt → InRange t → 1 ≤ n → n ≤ 1048575 →
    rampTo r t n = .next r0 → accumulateTimes n r0 = .next rn →
    |t - rn.value.toInt| = |t - r.value.toInt| % n ∧ |t - rn.value.toInt| ≤ n - 1 ∧
      |t - rn.value.toInt| < 1048576 ∧ (r.value.toInt ≤ t → rn.value.toInt ≤ t) ∧ (t ≤ r.value.toInt → t ≤ rn.value.toInt)

/-! ## Envelope operations -/

/-- `ENV.RENDER` in a hold state only recomputes `out` from the pinned value: 0 in Idle, `sus_lev` in Sustain
(R108, R122 a). -/
def Obligations.RenderInAHoldState : Prop :=
  ∀ s : State, Inv s → s.env.state = .idle ∨ s.env.state = .sustain →
    ∃ o : OutWord, exec .envRender s = .next { s with env := { s.env with out := o }, rsp := okWith o, evt := none } ∧
      o.toNat = if s.env.state = .idle then 0 else s.env.susLev.toNat

/-- `ENV.RENDER` in a ramp state before its end accumulates once and quantizes (R105, R108, R122). -/
def Obligations.RenderWithinARampState : Prop :=
  ∀ s : State, Inv s → s.env.state ≠ .idle → s.env.state ≠ .sustain →
    s.env.ramp.phase.toNat < s.env.ramp.len.toNat →
    ∃ (r : Ramp) (o : OutWord),
      exec .envRender s = .next { s with env := { s.env with ramp := r, out := o }, rsp := okWith o, evt := none } ∧
        Ticked s.env.ramp r ∧ QuantizedFrom o r.value

/-- `ENV.RENDER` at the end of a ramp state: the transition of R120, the entry action of R121, the first accumulation of
the state entered, and the event of the state left (R108, R121, R122). -/
def Obligations.RenderAtTheEndOfARampState : Prop :=
  ∀ s : State, Inv s → s.env.state ≠ .idle → s.env.state ≠ .sustain →
    s.env.ramp.len.toNat ≤ s.env.ramp.phase.toNat →
    ∃ (st : EnvState) (r : Ramp) (o : OutWord) (ev : Option Event),
      exec .envRender s =
        .next { s with env := { s.env with state := st, ramp := r, out := o }, rsp := okWith o, evt := ev } ∧
      QuantizedFrom o r.value ∧
      match s.env.state with
      | .attack => st = .decay ∧ FirstTick s.env.ramp r (levelFx s.env.susLev.toNat) (entryTicks s.env.decLen.toNat) ∧
          ev = none
      | .decay =>
        (if s.env.retrigger then st = .attack ∧ FirstTick s.env.ramp r 267386880 (entryTicks s.env.atkLen.toNat)
          else st = .sustain ∧ HeldAt r s.env.susLev.toNat ∧ o.toNat = s.env.susLev.toNat) ∧
          ev = slotEvent .eod s.env.eod
      | .sustainAdjust => st = .sustain ∧ HeldAt r s.env.susLev.toNat ∧ o.toNat = s.env.susLev.toNat ∧ ev = none
      | .release => st = .idle ∧ HeldAt r 0 ∧ o.toNat = 0 ∧ ev = slotEvent .eor s.env.eor
      | .idle => False
      | .sustain => False

/-- `ENV.ATK n` (R123). -/
def Obligations.AttackLengthSetter : Prop :=
  EnvLengthSetter .envAtk Env.atkLen (fun e l r => { e with atkLen := l, ramp := r }) .attack (fun _ => 267386880)

/-- `ENV.DEC n` (R124). -/
def Obligations.DecayLengthSetter : Prop :=
  EnvLengthSetter .envDec Env.decLen (fun e l r => { e with decLen := l, ramp := r }) .decay
    (fun e => levelFx e.susLev.toNat)

/-- `ENV.REL n` (R126). -/
def Obligations.ReleaseLengthSetter : Prop :=
  EnvLengthSetter .envRel Env.relLen (fun e l r => { e with relLen := l, ramp := r }) .release (fun _ => 0)

/-- `ENV.SUS v` (R125): store the level; re-aim a running decay or sustain adjust; enter SustainAdjust from Sustain. -/
def Obligations.SustainLevelSetter : Prop :=
  ∀ (s : State) (v : Int), Inv s →
    (levelOf v ≠ s.env.susLev.toNat → s.env.state = .decay →
      Fits s.env.ramp.phase (remainTicks s.params s.env.ramp.phase s.env.decLen.toNat)) →
    (levelOf v ≠ s.env.susLev.toNat → s.env.state = .sustainAdjust → Fits s.env.ramp.phase s.params.minRecompLen) →
    ∃ (l : Level) (st : EnvState) (r : Ramp),
      exec (.envSus v) s =
        .next { s with env := { s.env with susLev := l, state := st, ramp := r }, rsp := okWith 0, evt := none } ∧
      (l.toNat : Int) = levelOf v ∧
      if levelOf v = s.env.susLev.toNat then st = s.env.state ∧ r = s.env.ramp
      else
        match s.env.state with
        | .decay => st = .decay ∧ RampedTo s.env.ramp r (levelFx (levelOf v))
            (remainTicks s.params s.env.ramp.phase s.env.decLen.toNat)
        | .sustain => st = .sustainAdjust ∧ Entered s.env.ramp r (levelFx (levelOf v)) s.params.minRecompLen
        | .sustainAdjust => st = .sustainAdjust ∧ RampedTo s.env.ramp r (levelFx (levelOf v)) s.params.minRecompLen
        | .idle => st = .idle ∧ r = s.env.ramp
        | .attack => st = .attack ∧ r = s.env.ramp
        | .release => st = .release ∧ r = s.env.ramp

/-- `ENV.RETRIG b`, `ENV.HEOD h, c` and `ENV.HEOR h, c` write their register and nothing else, in every state
(R127, R129, R130). -/
def Obligations.EnvelopeFlagAndSlotSetters : Prop :=
  ∀ (s : State) (b : Bool) (h : HandlerRef) (c : Context),
    exec (.envRetrig b) s = .next { s with env := { s.env with retrigger := b }, rsp := okWith 0, evt := none } ∧
    exec (.envHeod h c) s =
      .next { s with env := { s.env with eod := { handler := h, ctx := c } }, rsp := okWith 0, evt := none } ∧
    exec (.envHeor h c) s =
      .next { s with env := { s.env with eor := { handler := h, ctx := c } }, rsp := okWith 0, evt := none }

/-- `ENV.GATE b` enters Attack or Release from every state, from the current accumulator; it never writes `value` or `out`
and fires no event (R121, R128). -/
def Obligations.GateEntersAttackOrRelease : Prop :=
  ∀ (s : State) (b : Bool), Inv s →
    ∃ r : Ramp,
      exec (.envGate b) s =
        .next { s with env := { s.env with state := if b then .attack else .release, ramp := r }, rsp := okWith 0,
                       evt := none } ∧
      if b then Entered s.env.ramp r 267386880 (entryTicks s.env.atkLen.toNat)
      else Entered s.env.ramp r 0 (entryTicks s.env.relLen.toNat)

/-- An attack from Idle lasts `n = max(atk_len, 1)` renders: after `k` of them (`1 <= k <= n`) the envelope is in Attack
with `phase = k`, `len = n`, the outputs never fall, and the last is 254 or 255, 255 exactly when
`fx(255) mod n <= 2^19`; render `n + 1` enters Decay (R113 c, R114). -/
def Obligations.AttackFromIdleRunsForItsLength : Prop :=
  ∀ s : State, Inv s → s.env.state = .idle →
    ∃ s0, exec (.envGate true) s = .next s0 ∧
      (∀ k : Nat, 1 ≤ k → (k : Int) ≤ entryTicks s.env.atkLen.toNat →
        ∃ t, renderTimes k s0 = .next t ∧ t.env.state = .attack ∧ t.env.ramp.phase.toNat = k ∧
          (t.env.ramp.len.toNat : Int) = entryTicks s.env.atkLen.toNat ∧
          ((k : Int) < entryTicks s.env.atkLen.toNat →
            ∃ u, renderTimes (k + 1) s0 = .next u ∧ t.env.out.toNat ≤ u.env.out.toNat) ∧
          ((k : Int) = entryTicks s.env.atkLen.toNat →
            (t.env.out.toNat = 254 ∨ t.env.out.toNat = 255) ∧
            (t.env.out.toNat = 255 ↔ 267386880 % entryTicks s.env.atkLen.toNat ≤ 524288) ∧
            ∃ u, renderTimes (k + 1) s0 = .next u ∧ u.env.state = .decay))

/-! ## Oscillator operations -/

/-- `LFO.RENDER` (R108, R151): before the end of the ramp accumulate; at its end flip, set up the fresh ramp toward the
opposite extreme and make its first accumulation. -/
def Obligations.OscillatorRender : Prop :=
  ∀ s : State, Inv s →
    ∃ (st : LfoState) (r : Ramp) (o : OutWord),
      exec .lfoRender s =
        .next { s with lfo := { s.lfo with state := st, ramp := r, out := o }, rsp := okWith o, evt := none } ∧
      QuantizedFrom o r.value ∧
      if s.lfo.ramp.len.toNat ≤ s.lfo.ramp.phase.toNat then
        match s.lfo.state with
        | .incline => st = .decline ∧ FirstTick s.lfo.ramp r 0 (entryTicks s.lfo.lenDecline.toNat)
        | .decline => st = .incline ∧ FirstTick s.lfo.ramp r 267386880 (entryTicks s.lfo.lenIncline.toNat)
      else st = s.lfo.state ∧ Ticked s.lfo.ramp r

/-- `LFO.PERIOD n` with a new value (R150, R152): the period, both derived lengths, and the running ramp over its remaining
ticks; never `value`, `phase`, `state` or `out`. -/
def Obligations.PeriodSetter : Prop :=
  ∀ (s : State) (n : Int), Inv s → lenOf n ≠ s.lfo.period.toNat →
    (∀ c : Int, c = (match s.lfo.state with
        | .incline => lenOf n * s.lfo.duty.val / 65536
        | .decline => lenOf n * (65536 - s.lfo.duty.val) / 65536) →
      Fits s.lfo.ramp.phase (remainTicks s.params s.lfo.ramp.phase c)) →
    ∃ (p li ld : Length) (r : Ramp),
      exec (.lfoPeriod n) s =
        .next { s with lfo := { s.lfo with period := p, lenIncline := li, lenDecline := ld, ramp := r }, rsp := okWith 0,
                       evt := none } ∧
      (p.toNat : Int) = lenOf n ∧ (li.toNat : Int) = lenOf n * s.lfo.duty.val / 65536 ∧
      (ld.toNat : Int) = lenOf n * (65536 - s.lfo.duty.val) / 65536 ∧
      match s.lfo.state with
      | .incline => RampedTo s.lfo.ramp r 267386880 (remainTicks s.params s.lfo.ramp.phase li.toNat)
      | .decline => RampedTo s.lfo.ramp r 0 (remainTicks s.params s.lfo.ramp.phase ld.toNat)

/-- `LFO.DUTY d` with a new value (R150, R153). -/
def Obligations.DutySetter : Prop :=
  ∀ (s : State) (d : Int), Inv s → dutyOf d ≠ s.lfo.duty.val →
    (∀ c : Int, c = (match s.lfo.state with
        | .incline => s.lfo.period.toNat * dutyOf d / 65536
        | .decline => s.lfo.period.toNat * (65536 - dutyOf d) / 65536) →
      Fits s.lfo.ramp.phase (remainTicks s.params s.lfo.ramp.phase c)) →
    ∃ (u : Duty) (li ld : Length) (r : Ramp),
      exec (.lfoDuty d) s =
        .next { s with lfo := { s.lfo with duty := u, lenIncline := li, lenDecline := ld, ramp := r }, rsp := okWith 0,
                       evt := none } ∧
      (u.val : Int) = dutyOf d ∧ (li.toNat : Int) = s.lfo.period.toNat * dutyOf d / 65536 ∧
      (ld.toNat : Int) = s.lfo.period.toNat * (65536 - dutyOf d) / 65536 ∧
      match s.lfo.state with
      | .incline => RampedTo s.lfo.ramp r 267386880 (remainTicks s.params s.lfo.ramp.phase li.toNat)
      | .decline => RampedTo s.lfo.ramp r 0 (remainTicks s.params s.lfo.ramp.phase ld.toNat)

/-! ## Sequencer operations -/

/-- `SEQ.RENDER` while ungated or with no steps returns the last `out` and changes nothing (R172 a, b). -/
def Obligations.SequencerRenderHoldsWhenUngatedOrEmpty : Prop :=
  ∀ s : State, s.seq.gated = false ∨ s.seq.nSteps.toNat = 0 →
    exec .seqRender s = .next { s with rsp := okWith s.seq.out, evt := none }

/-- `SEQ.RENDER` within a step (R172): the glide accumulates while `phase < gl_end`, then the value holds at the target. -/
def Obligations.SequencerRenderWithinAStep : Prop :=
  ∀ s : State, Inv s → s.seq.gated = true → 0 < s.seq.nSteps.toNat → s.seq.rstPending = false →
    s.seq.ramp.phase.toNat < s.seq.ramp.len.toNat →
    ∃ (v : Acc) (ph : Counter) (o : OutWord),
      exec .seqRender s =
        .next { s with seq := { s.seq with ramp := { s.seq.ramp with value := v, phase := ph }, out := o },
                       rsp := okWith o, evt := none } ∧
      v.toInt = (if s.seq.ramp.phase.toNat < s.seq.glEnd.toNat then s.seq.ramp.value.toInt + s.seq.ramp.slope.toInt
        else levelFx s.seq.tgt.toNat) ∧
      ph.toNat = s.seq.ramp.phase.toNat + 1 ∧ QuantizedFrom o v

/-- `SEQ.RENDER` that advances (R170, R171, R172): the next step or, on a wrap or a pending reset, step 0 is latched, its
glide set up and its first tick made; a wrap fires `EOS`. -/
def Obligations.SequencerRenderAdvances : Prop :=
  ∀ s : State, Inv s → s.seq.gated = true → 0 < s.seq.nSteps.toNat →
    s.seq.rstPending = true ∨ s.seq.ramp.len.toNat ≤ s.seq.ramp.phase.toNat →
    ∃ (idx : BitVec 8) (x : Step) (r : Ramp) (ge : Counter) (o : OutWord) (ev : Option Event),
      exec .seqRender s =
        .next { s with seq := { s.seq with stepIdx := idx, rstPending := false, tgt := x.val, ramp := r, glEnd := ge,
                                           out := o },
                       rsp := okWith o, evt := ev } ∧
      Memory.read s.seq.steps idx.toNat = some x ∧
      (if s.seq.rstPending = true ∨ s.seq.nSteps.toNat ≤ s.seq.stepIdx.toNat + 1 then
        idx.toNat = 0 ∧ ev = slotEvent .eos s.seq.eos
      else idx.toNat = s.seq.stepIdx.toNat + 1 ∧ ev = none) ∧
      r.slope.toInt = Int.tdiv (levelFx x.val.toNat - s.seq.ramp.value.toInt) (entryTicks s.seq.glidelen.toNat) ∧
      (ge.toNat : Int) = entryTicks s.seq.glidelen.toNat ∧ r.value.toInt = s.seq.ramp.value.toInt + r.slope.toInt ∧
      r.phase.toNat = 1 ∧
      (r.len.toNat : Int) = entryTicks (if s.seq.uniformStep then s.seq.steplen.toNat else x.len.toNat) ∧
      QuantizedFrom o r.value

/-- `SEQ.STEPLEN n` and `SEQ.GLIDE n` write their register and nothing else, in every state (R82, R173, R174). -/
def Obligations.SequencerLengthSetters : Prop :=
  ∀ (s : State) (n : Int),
    (∃ l : Length, exec (.seqSteplen n) s =
      .next { s with seq := { s.seq with steplen := l }, rsp := okWith 0, evt := none } ∧ (l.toNat : Int) = lenOf n) ∧
    ∃ l : Length, exec (.seqGlide n) s =
      .next { s with seq := { s.seq with glidelen := l }, rsp := okWith 0, evt := none } ∧ (l.toNat : Int) = lenOf n

/-- `SEQ.APPEND v` and `SEQ.APPENDL v, n` write entry `n_steps` and count it only when `n_steps < SEQ_CAP`; at the capacity
they change nothing and answer `FULL`. The entry holds the clamped level and the current `steplen`, or the clamped length
operand (R66, R175, R176, R212). -/
def Obligations.AppendsWriteTheNextEntryOrAnswerFull : Prop :=
  ∀ (s : State) (v n : Int),
    AppendsStep (.seqAppend v) s (levelOf v) s.seq.steplen.toNat ∧
    AppendsStep (.seqAppendl v n) s (levelOf v) (lenOf n)

/-- A rewrite of an index outside the sequence is a no-op that answers `OK` (R65, R177, R178). -/
def Obligations.RewriteOutOfRangeIsIgnored : Prop :=
  ∀ (s : State) (i : Nat) (v n : Int), s.seq.nSteps.toNat ≤ i →
    exec (.seqSetstep i v) s = .next (acknowledged s) ∧ exec (.seqSetstepl i v n) s = .next (acknowledged s)

/-- `SEQ.SETSTEP i, v` (R171, R177): the value of entry `i` is rewritten, and when it differs and the step is the active one
the glide is re-aimed from the current phase. -/
def Obligations.RewriteOfAStepValue : Prop :=
  ∀ (s : State) (i : Nat) (v : Int), Inv s → i < s.seq.nSteps.toNat →
    (i = s.seq.stepIdx.toNat → s.seq.rstPending = false →
      (Memory.read s.seq.steps i).map (fun x => (x.val.toNat : Int)) ≠ some (levelOf v) →
      Fits s.seq.ramp.phase (entryTicks s.seq.glidelen.toNat)) →
    ∃ (x y : Step) (m : Memory) (tg : Level) (sl : Acc) (ge : Counter),
      exec (.seqSetstep i v) s =
        .next { s with seq := { s.seq with steps := m, tgt := tg, ramp := { s.seq.ramp with slope := sl }, glEnd := ge },
                       rsp := okWith 0, evt := none } ∧
      Memory.read s.seq.steps i = some x ∧ (y.val.toNat : Int) = levelOf v ∧ y.len = x.len ∧
      (∀ a, Memory.read m a = if a = i then some y else Memory.read s.seq.steps a) ∧
      if y.val ≠ x.val ∧ i = s.seq.stepIdx.toNat ∧ s.seq.rstPending = false then
        tg = y.val ∧
        sl.toInt = Int.tdiv (levelFx y.val.toNat - s.seq.ramp.value.toInt) (entryTicks s.seq.glidelen.toNat) ∧
        (ge.toNat : Int) = s.seq.ramp.phase.toNat + entryTicks s.seq.glidelen.toNat
      else tg = s.seq.tgt ∧ sl = s.seq.ramp.slope ∧ ge = s.seq.glEnd

/-- `SEQ.SETSTEPL i, v, n` (R171, R178): as R177 for the value; the length of entry `i` is rewritten too, and when it
differs, the step is active and not uniform, the running step ends `remain_len` ticks from now. -/
def Obligations.RewriteOfAStepValueAndLength : Prop :=
  ∀ (s : State) (i : Nat) (v n : Int), Inv s → i < s.seq.nSteps.toNat →
    (i = s.seq.stepIdx.toNat → s.seq.rstPending = false →
      (Memory.read s.seq.steps i).map (fun x => (x.val.toNat : Int)) ≠ some (levelOf v) →
      Fits s.seq.ramp.phase (entryTicks s.seq.glidelen.toNat)) →
    (i = s.seq.stepIdx.toNat → s.seq.rstPending = false → s.seq.uniformStep = false →
      (Memory.read s.seq.steps i).map (fun x => (x.len.toNat : Int)) ≠ some (lenOf n) →
      Fits s.seq.ramp.phase (remainTicks s.params s.seq.ramp.phase (lenOf n))) →
    ∃ (x y : Step) (m : Memory) (tg : Level) (sl : Acc) (ln ge : Counter),
      exec (.seqSetstepl i v n) s =
        .next { s with seq := { s.seq with steps := m, tgt := tg, ramp := { s.seq.ramp with slope := sl, len := ln },
                                           glEnd := ge },
                       rsp := okWith 0, evt := none } ∧
      Memory.read s.seq.steps i = some x ∧ (y.val.toNat : Int) = levelOf v ∧ (y.len.toNat : Int) = lenOf n ∧
      (∀ a, Memory.read m a = if a = i then some y else Memory.read s.seq.steps a) ∧
      (if y.val ≠ x.val ∧ i = s.seq.stepIdx.toNat ∧ s.seq.rstPending = false then
        tg = y.val ∧
        sl.toInt = Int.tdiv (levelFx y.val.toNat - s.seq.ramp.value.toInt) (entryTicks s.seq.glidelen.toNat) ∧
        (ge.toNat : Int) = s.seq.ramp.phase.toNat + entryTicks s.seq.glidelen.toNat
      else tg = s.seq.tgt ∧ sl = s.seq.ramp.slope ∧ ge = s.seq.glEnd) ∧
      if y.len ≠ x.len ∧ i = s.seq.stepIdx.toNat ∧ s.seq.rstPending = false ∧ s.seq.uniformStep = false then
        (ln.toNat : Int) = s.seq.ramp.phase.toNat + remainTicks s.params s.seq.ramp.phase (lenOf n)
      else ln = s.seq.ramp.len

/-- `SEQ.CLEAR` empties the sequence without writing the step store (R68, R179). -/
def Obligations.ClearEmptiesWithoutErasing : Prop :=
  ∀ s : State,
    exec .seqClear s =
      .next { s with seq := { s.seq with nSteps := 0, stepIdx := 0, rstPending := true }, rsp := okWith 0, evt := none }

/-- `SEQ.GATE`, `SEQ.HEOS`, `SEQ.UNIFORM` write their register and nothing else; `SEQ.RESET` sets `rst_pending` and nothing
else, in every state (R180, R181, R182, R184). -/
def Obligations.SequencerFlagAndSlotSetters : Prop :=
  ∀ (s : State) (b : Bool) (h : HandlerRef) (c : Context),
    exec (.seqGate b) s = .next { s with seq := { s.seq with gated := b }, rsp := okWith 0, evt := none } ∧
    exec (.seqHeos h c) s =
      .next { s with seq := { s.seq with eos := { handler := h, ctx := c } }, rsp := okWith 0, evt := none } ∧
    exec (.seqUniform b) s = .next { s with seq := { s.seq with uniformStep := b }, rsp := okWith 0, evt := none } ∧
    exec .seqReset s = .next { s with seq := { s.seq with rstPending := true }, rsp := okWith 0, evt := none }

/-- `SEQ.NSTEPS` returns `n_steps` and writes no state (R183). -/
def Obligations.StepCountIsReturned : Prop :=
  ∀ s : State, ∃ d : OutWord,
    exec .seqNsteps s = .next { s with rsp := okWith d, evt := none } ∧ d.toNat = s.seq.nSteps.toNat
end

