-- ==== Sys2Proof/Laws/Arith.lean ====
section
/-! SUPPORT. What the shared arithmetic computes: ranges of the clamps and floors, the division rounded toward zero, and
the registers that hold levels and lengths exactly. -/

namespace Sys2Proof.Machine

theorem clamp_eq_max_min (x lo hi : Int) (h : lo ≤ hi) : clamp x lo hi = max lo (min x hi) := by
  unfold clamp; split_ifs <;> omega

theorem clamp_bounds (x lo hi : Int) (h : lo ≤ hi) : lo ≤ clamp x lo hi ∧ clamp x lo hi ≤ hi := by
  rw [clamp_eq_max_min x lo hi h]; omega

theorem lenOperand_toNat (n : Int) : ((lenOperand n).toNat : Int) = max 0 (min n 1048575) := by
  have h := clamp_bounds n 0 1048575 (by decide)
  rw [← clamp_eq_max_min n 0 1048575 (by decide)]
  simp only [lenOperand, lenMax, BitVec.toNat_ofInt]
  norm_num
  omega

theorem levelOperand_toNat (v : Int) : ((levelOperand v).toNat : Int) = max 0 (min v 255) := by
  have h := clamp_bounds v 0 255 (by decide)
  rw [← clamp_eq_max_min v 0 255 (by decide)]
  simp only [levelOperand, BitVec.toNat_ofInt]
  norm_num
  omega

theorem dutyOperand_val (d : Int) : ((dutyOperand d).val : Int) = max 0 (min d 65536) := by
  have h := clamp_bounds d 0 65536 (by decide)
  rw [← clamp_eq_max_min d 0 65536 (by decide)]
  simp only [dutyOperand, dutyOne, Fin.val_ofNat]
  norm_num
  omega

theorem fx_bounds (l : Level) : 0 ≤ fx l ∧ fx l ≤ fxMax := by
  have := l.isLt
  unfold fx one fxMax; omega

theorem fxReg_toInt (l : Level) : (fxReg l).toInt = fx l := by
  have := fx_bounds l
  unfold fxMax at this
  unfold fxReg
  exact BitVec.toInt_ofInt_eq_self (by decide) (by norm_num; omega) (by norm_num; omega)

@[simp] theorem fx_levMin : fx levMin = 0 := by decide
@[simp] theorem fx_levMax : fx levMax = 267386880 := by decide

theorem tdiv_eq (a : Int) (n : Nat) : tdiv a n = Int.tdiv a n := by
  unfold tdiv
  split_ifs with h
  · exact (Int.tdiv_eq_ediv_of_nonneg h).symm
  · have h' : 0 ≤ -a := by omega
    rw [← Int.tdiv_eq_ediv_of_nonneg h', Int.neg_tdiv, neg_neg]

/-- `n * tdiv(a, n)` is `a` less a rest of the sign of `a` smaller than `n` (R101). -/
theorem tdiv_rest (a : Int) (n : Nat) (h : 1 ≤ n) :
    ∃ k : Int, a = n * tdiv a n + k ∧ (0 ≤ a → 0 ≤ k ∧ k < n ∧ 0 ≤ tdiv a n) ∧ (a ≤ 0 → k ≤ 0 ∧ -n < k ∧ tdiv a n ≤ 0) := by
  have hn : (0 : Int) < n := by omega
  unfold tdiv
  split_ifs with h0
  · refine ⟨a % n, by rw [Int.mul_ediv_add_emod], fun _ => ⟨Int.emod_nonneg _ hn.ne', Int.emod_lt_of_pos _ hn,
      Int.ediv_nonneg h0 hn.le⟩, fun h1 => ?_⟩
    obtain rfl : a = 0 := by omega
    simp; omega
  · have e := Int.mul_ediv_add_emod (-a) n
    have m0 := Int.emod_nonneg (-a) hn.ne'
    have m1 := Int.emod_lt_of_pos (-a) hn
    have d0 : 0 ≤ -a / n := Int.ediv_nonneg (by omega) hn.le
    refine ⟨-((-a) % n), by rw [mul_neg]; omega, fun h1 => by omega, fun _ => ⟨by omega, by omega, by omega⟩⟩

theorem tdiv_bounds (a : Int) (n : Nat) : |tdiv a n| ≤ |a| := by
  rw [tdiv_eq, Int.abs_eq_natAbs, Int.abs_eq_natAbs, Int.natAbs_tdiv]
  exact_mod_cast Nat.div_le_self _ _

theorem one_le_entryLen (l : Length) : 1 ≤ entryLen l := le_max_right _ _

theorem entryLen_le (l : Length) : entryLen l ≤ lenMax := by
  have := l.isLt
  unfold entryLen entryMinLen lenMax; omega

theorem remainLen_cast (m : Nat) (ph : Counter) (l : Length) :
    (remainLen m ph l : Int) = max ((l.toNat : Int) - ph.toNat) m := by
  unfold remainLen; omega

theorem le_remainLen (m : Nat) (ph : Counter) (l : Length) : m ≤ remainLen m ph l := by
  unfold remainLen; omega

theorem remainLen_le (m : Nat) (ph : Counter) (l : Length) (h : m ≤ lenMax) : remainLen m ph l ≤ lenMax := by
  have := l.isLt
  unfold remainLen lenMax at *; omega

theorem clampq_toNat (v : Acc) : ((clampq v).toNat : Int) = max 0 (min ((v.toInt + 524288) / 1048576) 255) := by
  have h := clamp_bounds ((v.toInt + 524288) / 1048576) 0 255 (by decide)
  rw [← clamp_eq_max_min _ 0 255 (by decide)]
  simp only [clampq, BitVec.toNat_ofInt]
  norm_num
  omega

theorem clampq_le (v : Acc) : (clampq v).toNat ≤ 255 := by
  have := clampq_toNat v; omega

theorem clampq_mono {v v' : Acc} (h : v.toInt ≤ v'.toInt) : (clampq v).toNat ≤ (clampq v').toNat := by
  have h1 := clampq_toNat v
  have h2 := clampq_toNat v'
  omega

theorem clampq_fxReg (l : Level) : (clampq (fxReg l)).toNat = l.toNat := by
  have h := clampq_toNat (fxReg l)
  have := l.isLt
  rw [fxReg_toInt] at h
  unfold fx one at h; omega

end Sys2Proof.Machine
end

