-- ==== Sys2Proof/Laws/State.lean ====
section
/-! SUPPORT. One lemma per field per update of State, so that no proof unfolds a record update. -/

namespace Sys2Proof.Machine

variable (s : State) (e : Env) (l : Lfo) (q : Seq) (c : Status) (d : OutWord) (ev : Option Event) (w : CmdWord)

@[simp] theorem State.withEnv_params : (s.withEnv e).params = s.params := rfl
@[simp] theorem State.withEnv_env : (s.withEnv e).env = e := rfl
@[simp] theorem State.withEnv_lfo : (s.withEnv e).lfo = s.lfo := rfl
@[simp] theorem State.withEnv_seq : (s.withEnv e).seq = s.seq := rfl
@[simp] theorem State.withEnv_inputs : (s.withEnv e).inputs = s.inputs := rfl
@[simp] theorem State.withEnv_rsp : (s.withEnv e).rsp = s.rsp := rfl
@[simp] theorem State.withEnv_evt : (s.withEnv e).evt = s.evt := rfl
@[simp] theorem State.withEnv_self : s.withEnv s.env = s := rfl

@[simp] theorem State.withLfo_params : (s.withLfo l).params = s.params := rfl
@[simp] theorem State.withLfo_env : (s.withLfo l).env = s.env := rfl
@[simp] theorem State.withLfo_lfo : (s.withLfo l).lfo = l := rfl
@[simp] theorem State.withLfo_seq : (s.withLfo l).seq = s.seq := rfl
@[simp] theorem State.withLfo_inputs : (s.withLfo l).inputs = s.inputs := rfl
@[simp] theorem State.withLfo_rsp : (s.withLfo l).rsp = s.rsp := rfl
@[simp] theorem State.withLfo_evt : (s.withLfo l).evt = s.evt := rfl
@[simp] theorem State.withLfo_self : s.withLfo s.lfo = s := rfl

@[simp] theorem State.withSeq_params : (s.withSeq q).params = s.params := rfl
@[simp] theorem State.withSeq_env : (s.withSeq q).env = s.env := rfl
@[simp] theorem State.withSeq_lfo : (s.withSeq q).lfo = s.lfo := rfl
@[simp] theorem State.withSeq_seq : (s.withSeq q).seq = q := rfl
@[simp] theorem State.withSeq_inputs : (s.withSeq q).inputs = s.inputs := rfl
@[simp] theorem State.withSeq_rsp : (s.withSeq q).rsp = s.rsp := rfl
@[simp] theorem State.withSeq_evt : (s.withSeq q).evt = s.evt := rfl
@[simp] theorem State.withSeq_self : s.withSeq s.seq = s := rfl

@[simp] theorem State.answer_params : (s.answer c d ev).params = s.params := rfl
@[simp] theorem State.answer_env : (s.answer c d ev).env = s.env := rfl
@[simp] theorem State.answer_lfo : (s.answer c d ev).lfo = s.lfo := rfl
@[simp] theorem State.answer_seq : (s.answer c d ev).seq = s.seq := rfl
@[simp] theorem State.answer_inputs : (s.answer c d ev).inputs = s.inputs := rfl
@[simp] theorem State.answer_rsp : (s.answer c d ev).rsp = some ⟨c, d⟩ := rfl
@[simp] theorem State.answer_evt : (s.answer c d ev).evt = ev := rfl

@[simp] theorem presentWord_params : (presentWord s w).params = s.params := rfl
@[simp] theorem presentWord_env : (presentWord s w).env = s.env := rfl
@[simp] theorem presentWord_lfo : (presentWord s w).lfo = s.lfo := rfl
@[simp] theorem presentWord_seq : (presentWord s w).seq = s.seq := rfl
@[simp] theorem presentWord_inputs : (presentWord s w).inputs = .cmd w :: s.inputs := rfl

variable (p : Params)

@[simp] theorem State.resetWith_params : (State.resetWith p).params = p := rfl
@[simp] theorem State.resetWith_env : (State.resetWith p).env = Env.resetWith p := rfl
@[simp] theorem State.resetWith_lfo : (State.resetWith p).lfo = Lfo.resetWith p := rfl
@[simp] theorem State.resetWith_seq : (State.resetWith p).seq = Seq.resetWith p := rfl
@[simp] theorem State.resetWith_inputs : (State.resetWith p).inputs = [] := rfl

end Sys2Proof.Machine
end

