-- ==== Sys2Proof/Laws/Ops.lean ====
section
/-! SUPPORT. What each shared operation answers: one inversion and one completion lemma per operation, and the laws of
the step store. -/

namespace Sys2Proof.Machine

@[simp] theorem andThen_next {α β : Type} (a : α) (f : α → Res β) : andThen (.next a) f = f a := rfl
@[simp] theorem andThen_fault {α β : Type} (r : Fault) (f : α → Res β) : andThen (.fault r) f = .fault r := rfl
@[simp] theorem andThen_refused {α β : Type} (r : Refusal) (f : α → Res β) : andThen (.refused r) f = .refused r := rfl

theorem andThen_eq_next {α β : Type} {x : Res α} {f : α → Res β} {b : β} :
    andThen x f = .next b ↔ ∃ a, x = .next a ∧ f a = .next b := by
  cases x <;> simp

theorem accReg_next {x : Int} (h : -2147483648 ≤ x ∧ x < 2147483648) : accReg x = .next (BitVec.ofInt 32 x) :=
  if_pos h

theorem accReg_eq_next {x : Int} {v : Acc} (h : accReg x = .next v) : v.toInt = x := by
  unfold accReg at h
  split_ifs at h with hx
  obtain rfl : BitVec.ofInt 32 x = v := by simpa using h
  exact BitVec.toInt_ofInt_eq_self (by decide) (by norm_num; omega) (by norm_num; omega)

theorem ofInt_toInt_acc {x : Int} (h : -2147483648 ≤ x ∧ x < 2147483648) : (BitVec.ofInt 32 x : Acc).toInt = x :=
  accReg_eq_next (accReg_next h)

theorem counterReg_next {x : Nat} (h : x < counterSize) : counterReg x = .next (BitVec.ofNat 32 x) := if_pos h

theorem counterReg_refused {x : Nat} (h : counterSize ≤ x) : counterReg x = .refused .counterOverflow :=
  if_neg (by omega)

theorem counterReg_eq_next {x : Nat} {v : Counter} (h : counterReg x = .next v) : v.toNat = x := by
  unfold counterReg at h
  split_ifs at h with hx
  obtain rfl : BitVec.ofNat 32 x = v := by simpa using h
  exact (BitVec.toNat_ofNat x 32).trans (Nat.mod_eq_of_lt hx)

theorem ofNat_toNat_counter {x : Nat} (h : x < counterSize) : (BitVec.ofNat 32 x : Counter).toNat = x :=
  counterReg_eq_next (counterReg_next h)

/-- All that `ramp_to` can do (R102). -/
theorem rampTo_eq_next {r r' : Ramp} {t : Int} {n : Nat} (h : rampTo r t n = .next r') :
    r'.value = r.value ∧ r'.phase = r.phase ∧ r'.slope.toInt = tdiv (t - r.value.toInt) n ∧
      r'.len.toNat = r.phase.toNat + n := by
  simp only [rampTo, andThen_eq_next, Host.Outcome.next.injEq] at h
  obtain ⟨v, hv, l, hl, rfl⟩ := h
  exact ⟨rfl, rfl, accReg_eq_next hv, counterReg_eq_next hl⟩

/-- `ramp_to` completes from an accumulator in range toward a target in range when `phase + n` fits (R102, R112). -/
theorem rampTo_completes {r : Ramp} {t : Int} {n : Nat} (hv : InRange r.value.toInt) (ht : InRange t)
    (hn : r.phase.toNat + n < counterSize) : ∃ r', rampTo r t n = .next r' := by
  have hb := tdiv_bounds (t - r.value.toInt) n
  unfold InRange fxMax at hv ht
  have h1 : |t - r.value.toInt| ≤ 267386880 := abs_le.mpr ⟨by omega, by omega⟩
  obtain ⟨h2, h3⟩ := abs_le.mp (hb.trans h1)
  rw [rampTo, accReg_next ⟨by omega, by omega⟩, andThen_next, counterReg_next hn]
  exact ⟨_, rfl⟩

/-- All that `accumulate` can do (R105). -/
theorem accumulate_eq_next {r r' : Ramp} (h : accumulate r = .next r') :
    r'.value.toInt = r.value.toInt + r.slope.toInt ∧ r'.phase.toNat = r.phase.toNat + 1 ∧ r'.slope = r.slope ∧
      r'.len = r.len := by
  simp only [accumulate, andThen_eq_next, Host.Outcome.next.injEq] at h
  obtain ⟨v, hv, p, hp, rfl⟩ := h
  exact ⟨accReg_eq_next hv, counterReg_eq_next hp, rfl, rfl⟩

/-- `accumulate` completes when the sum is in range and a tick is left before `len` (R105, R110). -/
theorem accumulate_completes {r : Ramp} (hv : InRange (r.value.toInt + r.slope.toInt))
    (hp : r.phase.toNat < r.len.toNat) : ∃ r', accumulate r = .next r' := by
  have := r.len.isLt
  unfold InRange fxMax at hv
  rw [accumulate, accReg_next ⟨by omega, by omega⟩, andThen_next, counterReg_next (by unfold counterSize; omega)]
  exact ⟨_, rfl⟩

/-- A point between two ends in range, on a line with at least one tick to go, is in range (R110). -/
theorem inRange_next_tick {v s k : Int} (h0 : InRange v) (hk : 1 ≤ k) (h1 : InRange (v + k * s)) :
    InRange (v + s) := by
  unfold InRange at *
  constructor
  · by_cases hs : 0 ≤ s
    · omega
    · nlinarith
  · by_cases hs : 0 ≤ s
    · nlinarith
    · omega

/-- After `ramp_to` over `n` ticks the end of the ramp is in range and within one level of the target (R110, R111). -/
theorem rampTo_end {v t : Int} {n : Nat} (hv : InRange v) (ht : InRange t) (h1 : 1 ≤ n) (hn : n ≤ lenMax) :
    InRange (v + n * tdiv (t - v) n) ∧ WithinOneLevel t (v + n * tdiv (t - v) n) := by
  obtain ⟨k, hk, hpos, hneg⟩ := tdiv_rest (t - v) n h1
  unfold InRange fxMax at *
  unfold WithinOneLevel one lenMax at *
  rcases le_total 0 (t - v) with h | h
  · obtain ⟨a, b, c⟩ := hpos h
    have : (0 : Int) ≤ n * tdiv (t - v) n := mul_nonneg (by omega) c
    omega
  · obtain ⟨a, b, c⟩ := hneg h
    have : (n : Int) * tdiv (t - v) n ≤ 0 := mul_nonpos_of_nonneg_of_nonpos (by omega) c
    omega

/-- The ramp that `ramp_to` leaves runs to its target. -/
theorem rampTo_runs {r r' : Ramp} {t : Int} {n : Nat} (h : rampTo r t n = .next r') (hv : InRange r.value.toInt)
    (ht : InRange t) (h1 : 1 ≤ n) (hn : n ≤ lenMax) : r'.RunsTo t := by
  obtain ⟨hval, hph, hsl, hlen⟩ := rampTo_eq_next h
  have he := rampTo_end hv ht h1 hn
  have hk : (r'.len.toNat : Int) - r'.phase.toNat = n := by rw [hlen, hph]; push_cast; ring
  refine ⟨by rw [hph]; omega, by rw [hph]; omega, by rw [hval]; exact hv, ?_, ?_⟩ <;>
    simp only [Ramp.after, hk, hval, hsl]
  · exact he.1
  · exact he.2

/-- A tick before its end keeps a ramp running to its target. -/
theorem accumulate_runs {r r' : Ramp} {t : Int} (h : accumulate r = .next r') (hr : r.RunsTo t)
    (hp : r.phase.toNat < r.len.toNat) : r'.RunsTo t := by
  obtain ⟨hval, hph, hsl, hlen⟩ := accumulate_eq_next h
  obtain ⟨h1, h2, h3, h4, h5⟩ := hr
  have hafter : r'.after ((r'.len.toNat : Int) - r'.phase.toNat) = r.after ((r.len.toNat : Int) - r.phase.toNat) := by
    simp only [Ramp.after, hval, hph, hsl, hlen]; push_cast; ring
  refine ⟨by rw [hph, hlen]; omega, by rw [hph, hlen]; omega, ?_, by rwa [hafter], by rwa [hafter]⟩
  rw [hval]
  exact inRange_next_tick h3 (k := (r.len.toNat : Int) - r.phase.toNat) (by omega) h4

/-- The next tick of a running ramp before its end is in range. -/
theorem RunsTo.tick_inRange {r : Ramp} {t : Int} (hr : r.RunsTo t) (hp : r.phase.toNat < r.len.toNat) :
    InRange (r.value.toInt + r.slope.toInt) :=
  inRange_next_tick hr.2.2.1 (k := (r.len.toNat : Int) - r.phase.toNat) (by omega) hr.2.2.2.1

/-- The entry of a ramp state from an accumulator in range completes, whatever `phase` was (R103, R121). -/
theorem entry_completes {r : Ramp} {t : Int} {n : Nat} (hv : InRange r.value.toInt) (ht : InRange t) (h1 : 1 ≤ n)
    (hn : n ≤ lenMax) :
    ∃ r0, rampTo { r with phase := 0 } t n = .next r0 ∧ r0.RunsTo t ∧ r0.value = r.value ∧ r0.phase.toNat = 0 ∧
      r0.slope.toInt = tdiv (t - r.value.toInt) n ∧ r0.len.toNat = n := by
  obtain ⟨r0, h⟩ := rampTo_completes (r := { r with phase := 0 }) (n := n) hv ht
    (by unfold lenMax at hn; unfold counterSize; simp; omega)
  obtain ⟨h2, h3, h4, h5⟩ := rampTo_eq_next h
  exact ⟨r0, h, rampTo_runs h hv ht h1 hn, h2, by rw [h3]; rfl, h4, by simpa using h5⟩

/-- The tick that enters a ramp state makes its first accumulation (R108). -/
theorem entry_first_tick {r : Ramp} {t : Int} {n : Nat} (hv : InRange r.value.toInt) (ht : InRange t) (h1 : 1 ≤ n)
    (hn : n ≤ lenMax) :
    ∃ r0 r1, rampTo { r with phase := 0 } t n = .next r0 ∧ accumulate r0 = .next r1 ∧ r1.RunsTo t ∧
      r1.slope.toInt = tdiv (t - r.value.toInt) n ∧ r1.value.toInt = r.value.toInt + r1.slope.toInt ∧
      r1.phase.toNat = 1 ∧ r1.len.toNat = n := by
  obtain ⟨r0, h, hr, hval, hph, hsl, hlen⟩ := entry_completes hv ht h1 hn
  have hlt : r0.phase.toNat < r0.len.toNat := by omega
  obtain ⟨r1, ha⟩ := accumulate_completes (RunsTo.tick_inRange hr hlt) hlt
  obtain ⟨a1, a2, a3, a4⟩ := accumulate_eq_next ha
  exact ⟨r0, r1, h, ha, accumulate_runs ha hr hlt, by rw [a3, hsl], by rw [a1, a3, hval], by omega, by rw [a4, hlen]⟩

/-- A tick of a ramp before its end completes and keeps it running (R105, R110). -/
theorem tick_completes {r : Ramp} {t : Int} (hr : r.RunsTo t) (hp : r.phase.toNat < r.len.toNat) :
    ∃ r', accumulate r = .next r' ∧ r'.RunsTo t := by
  obtain ⟨r', h⟩ := accumulate_completes (RunsTo.tick_inRange hr hp) hp
  exact ⟨r', h, accumulate_runs h hr hp⟩

theorem not_atEnd {r : Ramp} (h : r.phase.toNat < r.len.toNat) : r.atEnd = false := by
  simpa [Ramp.atEnd] using h

theorem atEnd_of_le {r : Ramp} (h : r.len.toNat ≤ r.phase.toNat) : r.atEnd = true := by
  simpa [Ramp.atEnd] using h

/-! The step store. -/

/-- Reading after a write: the entry written at its index, every other index as before. -/
theorem Memory.read_write (m : Memory) (i j : Nat) (x : Step) :
    Memory.read (Memory.write m i x) j = if j = i then some x else Memory.read m j := by
  induction m with
  | nil => simp [Memory.write, Memory.read]
  | cons c m ih =>
    obtain ⟨k, y⟩ := c
    rcases lt_trichotomy i k with h | h | h
    · simp only [Memory.write, if_pos h, Memory.read]
    · subst h
      simp only [Memory.write, lt_irrefl, if_false, if_true, Memory.read]
      by_cases hj : j = i <;> simp [hj]
    · simp only [Memory.write, if_neg (Nat.lt_asymm h), if_neg (Nat.ne_of_gt h), Memory.read, ih]
      by_cases hj : j = k
      · simp [hj, Nat.ne_of_lt h]
      · simp [hj]

theorem Memory.risingAbove_write {lo : Nat} {m : Memory} {i : Nat} {x : Step} (h : Memory.risingAbove lo m = true)
    (hi : lo < i) : Memory.risingAbove lo (Memory.write m i x) = true := by
  induction m generalizing lo with
  | nil => simp [Memory.write, Memory.risingAbove, hi]
  | cons c m ih =>
    obtain ⟨k, y⟩ := c
    simp only [Memory.risingAbove, Bool.and_eq_true, decide_eq_true_eq] at h
    simp only [Memory.write]
    split_ifs with h1 h2
    · simp [Memory.risingAbove, hi, h1, h.2]
    · subst h2; simp [Memory.risingAbove, hi, h.2]
    · simp only [Memory.risingAbove, Bool.and_eq_true, decide_eq_true_eq]
      exact ⟨h.1, ih h.2 (by omega)⟩

/-- A write keeps the canonical form. -/
theorem Memory.wf_write {m : Memory} (i : Nat) (x : Step) (h : Memory.wf m = true) :
    Memory.wf (Memory.write m i x) = true := by
  cases m with
  | nil => rfl
  | cons c m =>
    obtain ⟨k, y⟩ := c
    simp only [Memory.wf] at h
    simp only [Memory.write]
    split_ifs with h1 h2
    · simp [Memory.wf, Memory.risingAbove, h1, h]
    · subst h2; exact h
    · exact Memory.risingAbove_write h (by omega)

/-- A write below the capacity keeps the store inside it. -/
theorem Memory.within_write {cap : Nat} {m : Memory} {i : Nat} {x : Step} (h : Memory.within cap m = true)
    (hi : i < cap) : Memory.within cap (Memory.write m i x) = true := by
  induction m with
  | nil => simp [Memory.write, Memory.within, hi]
  | cons c m ih =>
    obtain ⟨k, y⟩ := c
    simp only [Memory.within, List.all_cons, Bool.and_eq_true, decide_eq_true_eq] at h ih ⊢
    simp only [Memory.write]
    split_ifs
    · simp only [List.all_cons, Bool.and_eq_true, decide_eq_true_eq]; exact ⟨hi, h⟩
    · simp only [List.all_cons, Bool.and_eq_true, decide_eq_true_eq]; exact ⟨hi, h.2⟩
    · simp only [List.all_cons, Bool.and_eq_true, decide_eq_true_eq]; exact ⟨h.1, ih h.2⟩

theorem Memory.read_nil (i : Nat) : Memory.read [] i = none := rfl

/-- All that a read of the store through its bounds can do (R62). -/
theorem Memory.load_eq_next {p : Params} {m : Memory} {i : Nat} {x : Step} :
    Memory.load p m i = .next x ↔ i < p.seqCap ∧ Memory.read m i = some x := by
  unfold Memory.load
  split_ifs with h
  · cases hr : Memory.read m i <;> simp [h]
  · simp [h]

/-- All that a write of the store through its bounds can do (R62). -/
theorem Memory.store_eq_next {p : Params} {m m' : Memory} {i : Nat} {x : Step} :
    Memory.store p m i x = .next m' ↔ i < p.seqCap ∧ m' = Memory.write m i x := by
  unfold Memory.store
  split_ifs with h <;> simp [h, eq_comm]

/-! How an operation ends. -/

theorem returnOk_eq_next {s t : State} {v : OutWord} {ev : Option Event} :
    returnOk s v ev = .next t ↔ t = s.answer .ok v ev := by
  simp [returnOk, eq_comm]

theorem raiseStatus_eq_next {s t : State} {c : Status} : raiseStatus s c = .next t ↔ t = s.answer c 0 none := by
  simp [raiseStatus, eq_comm]

end Sys2Proof.Machine
end

