-- ==== Sys2Proof/Laws/Envelope.lean ====
section
/-! SUPPORT. What the procedures of the envelope can do, and that each keeps its invariant. -/

namespace Sys2Proof.Machine

theorem enterRamp_eq_next {e e' : Env} {st : EnvState} {t : Int} {n : Nat} (h : enterRamp e st t n = .next e') :
    ∃ r, rampTo { e.ramp with phase := 0 } t n = .next r ∧ e' = { e with state := st, ramp := r } := by
  simp only [enterRamp, andThen_eq_next, Host.Outcome.next.injEq] at h
  obtain ⟨r, hr, he⟩ := h
  exact ⟨r, hr, he.symm⟩

theorem envRampTo_eq_next {e e' : Env} {t : Int} {n : Nat} (h : envRampTo e t n = .next e') :
    ∃ r, rampTo e.ramp t n = .next r ∧ e' = { e with ramp := r } := by
  simp only [envRampTo, andThen_eq_next, Host.Outcome.next.injEq] at h
  obtain ⟨r, hr, he⟩ := h
  exact ⟨r, hr, he.symm⟩

/-- All that a live change of a length can do (R109). -/
theorem envRecompute_eq_next {p : Params} {e e' : Env} {st : EnvState} {t : Int} {l : Length}
    (h : envRecompute p e st t l = .next e') :
    (e.state = st ∧ ∃ r, rampTo e.ramp t (remainLen p.minRecompLen e.ramp.phase l) = .next r ∧
      e' = { e with ramp := r }) ∨ (e.state ≠ st ∧ e' = e) := by
  unfold envRecompute at h
  split_ifs at h with hs
  · exact .inl ⟨hs, envRampTo_eq_next h⟩
  · exact .inr ⟨hs, by simpa [eq_comm] using h⟩

/-- An entry changes only the state register and the ramp, and lands in the state entered (R121). -/
theorem enterEnv_eq_next {p : Params} {e e' : Env} {st : EnvState} (h : enterEnv p e st = .next e') :
    ∃ r, e' = { e with state := st, ramp := r } := by
  cases st <;> simp only [enterEnv, enterHold, Host.Outcome.next.injEq] at h
  · exact ⟨_, h.symm⟩
  · exact (enterRamp_eq_next h).imp fun _ h => h.2
  · exact (enterRamp_eq_next h).imp fun _ h => h.2
  · exact ⟨_, h.symm⟩
  · exact (enterRamp_eq_next h).imp fun _ h => h.2
  · exact (enterRamp_eq_next h).imp fun _ h => h.2

/-- The accumulator of an envelope that meets its invariant is in range (R29 e). -/
theorem EnvInv.inRange {e : Env} (h : EnvInv e) : InRange e.ramp.value.toInt := by
  obtain ⟨-, h⟩ := h
  cases hs : e.state <;> rw [hs] at h
  · rw [h]; simp only [fxReg_toInt]; exact fx_bounds _
  · exact h.2.2.1
  · exact h.2.2.1
  · rw [h]; simp only [fxReg_toInt]; exact fx_bounds _
  · exact h.2.2.1
  · exact h.2.2.1

/-- A ramp state's ramp runs to the target of its state. -/
theorem EnvInv.runs {e : Env} (h : EnvInv e) (hi : e.state ≠ .idle) (hs : e.state ≠ .sustain) :
    ∃ t, e.ramp.RunsTo t ∧ ∀ r o, r.RunsTo t → OutLegal o → EnvInv { e with ramp := r, out := o } := by
  obtain ⟨ho, h⟩ := h
  cases hst : e.state <;> rw [hst] at h <;>
    first
    | exact absurd hst hi
    | exact absurd hst hs
    | exact ⟨_, h, fun r o hr ho' => ⟨ho', by simpa only [hst] using hr⟩⟩

/-- Every entry from an accumulator in range completes and meets the invariant (R29, R121). -/
theorem enterEnv_completes {p : Params} {e : Env} (st : EnvState) (hp : p.Legal) (hv : InRange e.ramp.value.toInt)
    (ho : OutLegal e.out) : ∃ e', enterEnv p e st = .next e' ∧ EnvInv e' := by
  have ramp : ∀ (st : EnvState) (t : Int) (n : Nat), InRange t → 1 ≤ n → n ≤ lenMax →
      ∃ r, enterRamp e st t n = .next { e with state := st, ramp := r } ∧ r.RunsTo t := by
    intro st t n ht h1 hn
    obtain ⟨r, h, hr, -⟩ := entry_completes hv ht h1 hn
    exact ⟨r, by rw [enterRamp, h]; rfl, hr⟩
  cases st <;> simp only [enterEnv]
  · exact ⟨_, rfl, ho, rfl⟩
  · obtain ⟨r, h, hr⟩ := ramp .attack _ _ (fx_bounds levMax) (one_le_entryLen e.atkLen) (entryLen_le _)
    exact ⟨_, h, ho, hr⟩
  · obtain ⟨r, h, hr⟩ := ramp .decay _ _ (fx_bounds e.susLev) (one_le_entryLen e.decLen) (entryLen_le _)
    exact ⟨_, h, ho, hr⟩
  · exact ⟨_, rfl, ho, rfl⟩
  · obtain ⟨r, h, hr⟩ := ramp .sustainAdjust _ _ (fx_bounds e.susLev) hp.1 hp.2.1
    exact ⟨_, h, ho, hr⟩
  · obtain ⟨r, h, hr⟩ := ramp .release _ _ (fx_bounds levMin) (one_le_entryLen e.relLen) (entryLen_le _)
    exact ⟨_, h, ho, hr⟩

/-- An entry that completes from an invariant envelope meets the invariant. -/
theorem enterEnv_inv {p : Params} {e e' : Env} {st : EnvState} (hp : p.Legal) (hv : InRange e.ramp.value.toInt)
    (ho : OutLegal e.out) (h : enterEnv p e st = .next e') : EnvInv e' := by
  obtain ⟨e'', h', hi⟩ := enterEnv_completes st hp hv ho
  rw [h] at h'
  obtain rfl : e' = e'' := by simpa using h'
  exact hi

end Sys2Proof.Machine
end

