-- ==== Sys2Proof/Laws/Oscillator.lean ====
section
/-! SUPPORT. What the procedures of the oscillator can do. -/

namespace Sys2Proof.Machine

/-- The derived lengths are the floors of R35: neither is cut by its 20-bit register. -/
theorem inclineLen_toNat (p : Length) (d : Duty) : (inclineLen p d).toNat = p.toNat * d.val / 65536 := by
  have h1 := p.isLt
  have h2 := d.isLt
  have : p.toNat * d.val ≤ p.toNat * 65536 := Nat.mul_le_mul_left _ (by omega)
  simp only [inclineLen, dutyOne, BitVec.toNat_ofNat]
  exact Nat.mod_eq_of_lt (by omega)

theorem declineLen_toNat (p : Length) (d : Duty) : (declineLen p d).toNat = p.toNat * (65536 - d.val) / 65536 := by
  have h1 := p.isLt
  have h2 := d.isLt
  have : p.toNat * (65536 - d.val) ≤ p.toNat * 65536 := Nat.mul_le_mul_left _ (by omega)
  simp only [declineLen, dutyOne, BitVec.toNat_ofNat]
  exact Nat.mod_eq_of_lt (by omega)

theorem lfoTarget_inRange (st : LfoState) : InRange (lfoTarget st) := by cases st <;> decide

/-- All that a flip can do (R151). -/
theorem lfoFlip_eq_next {l l' : Lfo} (h : lfoFlip l = .next l') :
    ∃ r, rampTo { l.ramp with phase := 0 } (lfoTarget l.state.flip)
        (entryLen (lfoCurLen { l with state := l.state.flip })) = .next r ∧
      l' = { l with state := l.state.flip, ramp := r } := by
  simp only [lfoFlip, andThen_eq_next, Host.Outcome.next.injEq] at h
  obtain ⟨r, hr, hl⟩ := h
  exact ⟨r, hr, hl.symm⟩

/-- All that a live recomputation can do (R152). -/
theorem lfoRecompute_eq_next {p : Params} {l l' : Lfo} (h : lfoRecompute p l = .next l') :
    ∃ r n, rampTo l.ramp (lfoTarget l.state) n = .next r ∧ p.minRecompLen ≤ n ∧
      (p.minRecompLen ≤ lenMax → n ≤ lenMax) ∧
      l' = { l with
        lenIncline := inclineLen l.period l.duty
        lenDecline := declineLen l.period l.duty
        ramp := r } := by
  simp only [lfoRecompute, andThen_eq_next, Host.Outcome.next.injEq] at h
  obtain ⟨r, hr, hl⟩ := h
  exact ⟨r, _, hr, le_remainLen _ _ _, remainLen_le _ _ _, hl.symm⟩

end Sys2Proof.Machine
end

