-- ==== Sys2Proof/Laws/PerInstr.lean ====
section
/-! SUPPORT. Per instruction: its canonical word carries the opcode of its row in spec/opcode_table.json. -/

namespace Sys2Proof.Laws.Opcode

/-- The row's `match >> 56`, written out from spec/opcode_table.json. -/
def rowOpcode : Instr → BitVec 8
  | .envRender => 0x10
  | .envAtk _ => 0x11
  | .envDec _ => 0x12
  | .envSus _ => 0x13
  | .envRel _ => 0x14
  | .envRetrig _ => 0x15
  | .envGate _ => 0x16
  | .envHeod _ _ => 0x17
  | .envHeor _ _ => 0x18
  | .lfoRender => 0x20
  | .lfoPeriod _ => 0x21
  | .lfoDuty _ => 0x22
  | .seqRender => 0x30
  | .seqSteplen _ => 0x31
  | .seqGlide _ => 0x32
  | .seqAppend _ => 0x33
  | .seqAppendl _ _ => 0x34
  | .seqSetstep _ _ => 0x35
  | .seqSetstepl _ _ _ => 0x36
  | .seqClear => 0x37
  | .seqGate _ => 0x38
  | .seqReset => 0x39
  | .seqHeos _ _ => 0x3A
  | .seqNsteps => 0x3B
  | .seqUniform _ => 0x3C

/-- The instruction's word has its row's opcode in bits 63:56 (R81, R90). -/
def Statement (i : Instr) : Prop := opField (encode i) = rowOpcode i

theorem opField_packCmd (op idx : BitVec 8) (a : BitVec 16) (b : BitVec 32) : opField (packCmd op idx a b) = op := by
  apply BitVec.eq_of_getLsbD_eq
  intro k hk
  simp only [opField, packCmd, BitVec.getLsbD_extractLsb', BitVec.getLsbD_append]
  simp (disch := omega) [hk, show ¬ 56 + k < 32 by omega, show ¬ 56 + k - 32 < 16 by omega, show ¬ 56 + k - 32 - 16 < 8 by omega]
  congr 1
  omega

theorem envRender : Statement .envRender := opField_packCmd _ _ _ _
theorem envAtk (n : Int) : Statement (.envAtk n) := opField_packCmd _ _ _ _
theorem envDec (n : Int) : Statement (.envDec n) := opField_packCmd _ _ _ _
theorem envSus (v : Int) : Statement (.envSus v) := opField_packCmd _ _ _ _
theorem envRel (n : Int) : Statement (.envRel n) := opField_packCmd _ _ _ _
theorem envRetrig (b : Bool) : Statement (.envRetrig b) := opField_packCmd _ _ _ _
theorem envGate (b : Bool) : Statement (.envGate b) := opField_packCmd _ _ _ _
theorem envHeod (h : HandlerRef) (c : Context) : Statement (.envHeod h c) := opField_packCmd _ _ _ _
theorem envHeor (h : HandlerRef) (c : Context) : Statement (.envHeor h c) := opField_packCmd _ _ _ _
theorem lfoRender : Statement .lfoRender := opField_packCmd _ _ _ _
theorem lfoPeriod (n : Int) : Statement (.lfoPeriod n) := opField_packCmd _ _ _ _
theorem lfoDuty (d : Int) : Statement (.lfoDuty d) := opField_packCmd _ _ _ _
theorem seqRender : Statement .seqRender := opField_packCmd _ _ _ _
theorem seqSteplen (n : Int) : Statement (.seqSteplen n) := opField_packCmd _ _ _ _
theorem seqGlide (n : Int) : Statement (.seqGlide n) := opField_packCmd _ _ _ _
theorem seqAppend (v : Int) : Statement (.seqAppend v) := opField_packCmd _ _ _ _
theorem seqAppendl (v n : Int) : Statement (.seqAppendl v n) := opField_packCmd _ _ _ _
theorem seqSetstep (i : Nat) (v : Int) : Statement (.seqSetstep i v) := opField_packCmd _ _ _ _
theorem seqSetstepl (i : Nat) (v n : Int) : Statement (.seqSetstepl i v n) := opField_packCmd _ _ _ _
theorem seqClear : Statement .seqClear := opField_packCmd _ _ _ _
theorem seqGate (b : Bool) : Statement (.seqGate b) := opField_packCmd _ _ _ _
theorem seqReset : Statement .seqReset := opField_packCmd _ _ _ _
theorem seqHeos (h : HandlerRef) (c : Context) : Statement (.seqHeos h c) := opField_packCmd _ _ _ _
theorem seqNsteps : Statement .seqNsteps := opField_packCmd _ _ _ _
theorem seqUniform (b : Bool) : Statement (.seqUniform b) := opField_packCmd _ _ _ _

end Sys2Proof.Laws.Opcode
end

