-- ==== Sys2Proof/Laws/Sequencer.lean ====
section
/-! SUPPORT. What the procedures of the sequencer can do. -/

namespace Sys2Proof.Machine

/-- All that a glide set-up can do: it writes `slope` and `gl_end` only (R171). -/
theorem glide_eq_next {q q' : Seq} (h : glide q = .next q') :
    ∃ slope glEnd, q' = { q with ramp := { q.ramp with slope := slope }, glEnd := glEnd } ∧
      slope.toInt = tdiv (fx q.tgt - q.ramp.value.toInt) (entryLen q.glidelen) ∧
      glEnd.toNat = q.ramp.phase.toNat + entryLen q.glidelen := by
  simp only [glide, andThen_eq_next, Host.Outcome.next.injEq] at h
  obtain ⟨v, hv, g, hg, hq⟩ := h
  exact ⟨v, g, hq.symm, accReg_eq_next hv, counterReg_eq_next hg⟩

/-- A glide set-up completes from an accumulator in range when its end fits `gl_end` (R112, R171). -/
theorem glide_completes {q : Seq} (hv : InRange q.ramp.value.toInt)
    (hg : q.ramp.phase.toNat + entryLen q.glidelen < counterSize) : ∃ q', glide q = .next q' := by
  have hb := tdiv_bounds (fx q.tgt - q.ramp.value.toInt) (entryLen q.glidelen)
  have ht := fx_bounds q.tgt
  unfold InRange fxMax at *
  have h1 : |fx q.tgt - q.ramp.value.toInt| ≤ 267386880 := abs_le.mpr ⟨by omega, by omega⟩
  obtain ⟨h2, h3⟩ := abs_le.mp (hb.trans h1)
  rw [glide, accReg_next ⟨by omega, by omega⟩, andThen_next, counterReg_next hg]
  exact ⟨_, rfl⟩

/-- The glide that is set up keeps the accumulator in range to its end, within one level of the target. -/
theorem glide_runs {q q' : Seq} (h : glide q = .next q') (hv : InRange q.ramp.value.toInt) : q'.GlideRuns := by
  obtain ⟨v, g, rfl, hs, hg⟩ := glide_eq_next h
  intro _
  have e := rampTo_end hv (fx_bounds q.tgt) (one_le_entryLen q.glidelen) (entryLen_le _)
  have hk : (g.toNat : Int) - q.ramp.phase.toNat = entryLen q.glidelen := by rw [hg]; push_cast; ring
  simp only [Ramp.after, hk, hs]
  exact e

/-- All that an advance can do (R170). -/
theorem seqAdvance_eq_next {p : Params} {q q' : Seq} {ev : Option Event} (h : seqAdvance p q = .next (q', ev)) :
    ∃ x slope glEnd, Memory.read q.steps (seqNextIdx q) = some x ∧ seqNextIdx q < p.seqCap ∧
      slope.toInt = tdiv (fx x.val - q.ramp.value.toInt) (entryLen q.glidelen) ∧
      glEnd.toNat = entryLen q.glidelen ∧
      q' = { q with
        stepIdx := BitVec.ofNat 8 (seqNextIdx q)
        rstPending := false
        tgt := x.val
        ramp :=
          { value := q.ramp.value
            slope := slope
            phase := 0
            len := BitVec.ofNat 32 (entryLen (if q.uniformStep then q.steplen else x.len)) }
        glEnd := glEnd } ∧
      ev = if seqWraps q then fire .eos q.eos else none := by
  simp only [seqAdvance, andThen_eq_next, Host.Outcome.next.injEq, Prod.mk.injEq, Memory.load_eq_next] at h
  obtain ⟨x, ⟨hc, hx⟩, q2, hq, rfl, rfl⟩ := h
  obtain ⟨v, g, rfl, hs, hg⟩ := glide_eq_next hq
  exact ⟨x, v, g, hx, hc, hs, by simpa using hg, rfl, rfl⟩

/-- The step an advance goes to is part of the sequence (R170). -/
theorem seqNextIdx_lt {q : Seq} (h : 0 < q.nSteps.toNat) : seqNextIdx q < q.nSteps.toNat := by
  unfold seqNextIdx seqWraps
  cases q.rstPending
  · by_cases hw : q.nSteps.toNat ≤ q.stepIdx.toNat + 1
    · simpa [hw] using h
    · simp only [hw, Bool.false_or, decide_false, Bool.false_eq_true, if_false]; omega
  · simpa using h

/-- All that the tick of a gated render can do (R172). -/
theorem seqTick_eq_next {q q' : Seq} (h : seqTick q = .next q') :
    ∃ value phase, q' = { q with ramp := { q.ramp with value := value, phase := phase }, out := clampq value } ∧
      phase.toNat = q.ramp.phase.toNat + 1 ∧
      value.toInt =
        if q.ramp.phase.toNat < q.glEnd.toNat then q.ramp.value.toInt + q.ramp.slope.toInt else fx q.tgt := by
  simp only [seqTick, andThen_eq_next, Host.Outcome.next.injEq] at h
  obtain ⟨v, hv, p, hp, hq⟩ := h
  refine ⟨v, p, hq.symm, counterReg_eq_next hp, ?_⟩
  split_ifs at hv ⊢
  · exact accReg_eq_next hv
  · rw [← fxReg_toInt]; congr 1; simpa [eq_comm] using hv

/-- The tick of a gated render completes before the end of the step (R110, R172). -/
theorem seqTick_completes {q : Seq} (hv : InRange q.ramp.value.toInt) (hg : q.GlideRuns)
    (hp : q.ramp.phase.toNat < q.ramp.len.toNat) : ∃ q', seqTick q = .next q' := by
  have hl := q.ramp.len.isLt
  have hc : counterReg (q.ramp.phase.toNat + 1) = .next (BitVec.ofNat 32 (q.ramp.phase.toNat + 1)) :=
    counterReg_next (by unfold counterSize; omega)
  unfold seqTick
  split_ifs with h
  · have e := inRange_next_tick hv (k := (q.glEnd.toNat : Int) - q.ramp.phase.toNat) (by omega) (hg h).1
    unfold InRange fxMax at e
    rw [accReg_next ⟨by omega, by omega⟩, andThen_next, hc]
    exact ⟨_, rfl⟩
  · rw [andThen_next, hc]
    exact ⟨_, rfl⟩

/-- All that the value part of a rewrite can do (R177). -/
theorem seqSetVal_eq_next {p : Params} {q q' : Seq} {i : Nat} {x : Step} {v : Level}
    (h : seqSetVal p q i x v = .next q') :
    (v = x.val ∧ q' = q) ∨
    (v ≠ x.val ∧ i < p.seqCap ∧
      ((q.isActive i = false ∧ q' = { q with steps := Memory.write q.steps i { x with val := v } }) ∨
        (q.isActive i = true ∧
          glide { q with steps := Memory.write q.steps i { x with val := v }, tgt := v } = .next q'))) := by
  unfold seqSetVal at h
  split_ifs at h with hv ha
  · exact .inl ⟨hv, by simpa [eq_comm] using h⟩
  all_goals
    simp only [andThen_eq_next, Memory.store_eq_next] at h
    obtain ⟨m, ⟨hi, rfl⟩, h⟩ := h
  · exact .inr ⟨hv, hi, .inr ⟨ha, h⟩⟩
  · exact .inr ⟨hv, hi, .inl ⟨by simpa using ha, by simpa [eq_comm] using h⟩⟩

/-- All that the length part of a rewrite can do (R178). -/
theorem seqSetLen_eq_next {p : Params} {q q' : Seq} {i : Nat} {x : Step} {l : Length}
    (h : seqSetLen p q i x l = .next q') :
    (l = x.len ∧ q' = q) ∨
    (l ≠ x.len ∧ i < p.seqCap ∧
      (((q.isActive i && !q.uniformStep) = false ∧
          q' = { q with steps := Memory.write q.steps i { x with len := l } }) ∨
        ((q.isActive i && !q.uniformStep) = true ∧ ∃ len : Counter,
          len.toNat = q.ramp.phase.toNat + remainLen p.minRecompLen q.ramp.phase l ∧
          q' = { q with steps := Memory.write q.steps i { x with len := l }, ramp := { q.ramp with len := len } }))) := by
  unfold seqSetLen at h
  split_ifs at h with hv ha
  · exact .inl ⟨hv, by simpa [eq_comm] using h⟩
  all_goals
    simp only [andThen_eq_next, Memory.store_eq_next] at h
    obtain ⟨m, ⟨hi, rfl⟩, h⟩ := h
  · simp only [Host.Outcome.next.injEq] at h
    obtain ⟨n, hn, hq⟩ := h
    exact .inr ⟨hv, hi, .inr ⟨ha, n, counterReg_eq_next hn, hq.symm⟩⟩
  · exact .inr ⟨hv, hi, .inl ⟨by simpa using ha, by simpa [eq_comm] using h⟩⟩

/-- All that an append can do (R66, R175). -/
theorem seqAppendStep_eq_next {s t : State} {x : Step} (h : seqAppendStep s x = .next t) :
    (s.params.seqCap ≤ s.seq.nSteps.toNat ∧ t = s.answer .full 0 none) ∨
    (s.seq.nSteps.toNat < s.params.seqCap ∧
      t = (s.withSeq { s.seq with
        steps := Memory.write s.seq.steps s.seq.nSteps.toNat x
        nSteps := s.seq.nSteps + 1 }).answer .ok 0 none) := by
  unfold seqAppendStep Seq.isFull at h
  split_ifs at h with hf
  · exact .inl ⟨by simpa using hf, raiseStatus_eq_next.mp h⟩
  · simp only [andThen_eq_next, Memory.store_eq_next] at h
    obtain ⟨m, ⟨hi, rfl⟩, h⟩ := h
    exact .inr ⟨hi, returnOk_eq_next.mp h⟩

end Sys2Proof.Machine
end

