-- ==== Sys2Proof/Tests/Slice0.lean ====
section
/-! SUPPORT. The model's own tests: the well-formedness smoke, every constructor's decoding, one step of every operation
against the spec's examples, and a witness for the hypotheses of every statement. Expected values are the spec's: the rule
or vector of spec/95_test_vectors.md each test takes them from stands above it. -/

open Sys2Proof Sys2Proof.Machine Sys2Proof.Claims

namespace Sys2Proof.Tests

/-! ## Well-formedness: one ill-formed term for each check -/

/-- R82: `B` holds `[-2^31, 2^31)`. -/
theorem test_length_above_B_refused : (Instr.envAtk 2147483648).wellFormed = false := by decide
theorem test_length_below_B_refused : (Instr.seqGlide (-2147483649)).wellFormed = false := by decide
/-- R85. -/
theorem test_duty_above_B_refused : (Instr.lfoDuty 2147483648).wellFormed = false := by decide
/-- R83: `A` holds `[-32768, 32768)`. -/
theorem test_level_above_A_refused : (Instr.envSus 32768).wellFormed = false := by decide
theorem test_level_below_A_refused : (Instr.seqAppendl (-32769) 0).wellFormed = false := by decide
/-- R86: `IDX` holds `0 ..= 255`. -/
theorem test_index_above_IDX_refused : (Instr.seqSetstepl 256 0 0).wellFormed = false := by decide
/-- R95: a percentage is at most 100. -/
theorem test_percentage_refused : (Pseudo.lfoDutypct 101).wellFormed = false := by decide

/-! ## Decoding: one word for every constructor, from the encodings of R90, R94 and the examples of the operation rules -/

/-- R122 to R126, A4. -/
theorem test_decode_env_lengths :
    decode 0x1000000000000000 = .ok .envRender ∧ decode 0x11000000001E8480 = .ok (.envAtk 2000000) ∧
    decode 0x120000007FFFFFFF = .ok (.envDec 2147483647) ∧ decode 0x1300800000000000 = .ok (.envSus (-32768)) ∧
    decode 0x1400000080000000 = .ok (.envRel (-2147483648)) := by decide

/-- R127 to R130, A4, Z2. -/
theorem test_decode_env_flags :
    decode 0x1500000100000000 = .ok (.envRetrig true) ∧ decode 0x1500000000000000 = .ok (.envRetrig false) ∧
    decode 0x16AB0001DEADBEEF = .ok (.envGate true) ∧ decode 0x1600000000000000 = .ok (.envGate false) ∧
    decode 0x1700000D00000111 = .ok (.envHeod 0x000D 0x111) ∧
    decode 0x1800000E00000222 = .ok (.envHeor 0x000E 0x222) := by decide

/-- R151 to R153, A4. -/
theorem test_decode_lfo :
    decode 0x2000000000000000 = .ok .lfoRender ∧ decode 0x21000000FFFFFFF9 = .ok (.lfoPeriod (-7)) ∧
    decode 0x2200000000011170 = .ok (.lfoDuty 70000) := by decide

/-- R172 to R178, Q3, Q10, Q11. -/
theorem test_decode_seq_steps :
    decode 0x3000000000000000 = .ok .seqRender ∧ decode 0x3100000000000009 = .ok (.seqSteplen 9) ∧
    decode 0x3200000000000001 = .ok (.seqGlide 1) ∧ decode 0x3300FFFC00000000 = .ok (.seqAppend (-4)) ∧
    decode 0x340000097FFFFFFF = .ok (.seqAppendl 9 2147483647) ∧
    decode 0x3501006400000000 = .ok (.seqSetstep 1 100) ∧
    decode 0x36FF000100000001 = .ok (.seqSetstepl 255 1 1) := by decide

/-- R179 to R184, Z2. -/
theorem test_decode_seq_control :
    decode 0x3700000000000000 = .ok .seqClear ∧ decode 0x3800000100000000 = .ok (.seqGate true) ∧
    decode 0x3900000000000000 = .ok .seqReset ∧ decode 0x3A00000700000ABC = .ok (.seqHeos 7 0xABC) ∧
    decode 0x3BFF123400005678 = .ok .seqNsteps ∧ decode 0x3C00000100000000 = .ok (.seqUniform true) := by decide

/-- Z1: the nine illegal words of the vector. -/
theorem test_decode_illegal :
    [0x0000000000000000, 0x0F12345678ABCDEF, 0x1900000000000000, 0x1F00000000000000, 0x2300000000000001,
      0x2F00000000000000, 0x3D00000000000000, 0x4000000000000000, 0xFFFFFFFFFFFFFFFF].map
      (fun w => decode w == .error (.illegalOpcode (opField w))) = List.replicate 9 true := by decide

/-- R94: the two example words of the assembler syntax. -/
theorem test_encode_examples :
    encode (.seqSetstepl 1 255 2) = 0x360100FF00000002 ∧ encode (.envAtk (-1)) = 0x11000000FFFFFFFF := by decide

/-- R94: mnemonic, then operands in order. -/
theorem test_asm_operands :
    mnemonic (.seqSetstepl 1 255 2) = "SEQ.SETSTEPL" ∧ asmOperands (.seqSetstepl 1 255 2) = [1, 255, 2] := by decide

/-- R95, S4: 0.5 is 32768, and `TICK` is three words in this order. -/
theorem test_pseudo :
    expandPseudo (.lfoDutypct 50) = [.lfoDuty 32768] ∧
    (expandPseudo .tick).map encode = [0x1000000000000000, 0x2000000000000000, 0x3000000000000000] ∧
    (expandPseudo .envTrig).map encode = [0x1600000100000000] ∧
    (expandPseudo .envRelease).map encode = [0x1600000000000000] := by decide

/-- The table numbers a word's bits as R81 does. -/
theorem test_table_word : decodeTableWord 64 0x3501006400000000 = some (.seqSetstep 1 100) := by decide

/-! ## Arithmetic -/

/-- A1. -/
theorem test_tdiv :
    tdiv 7 2 = 3 ∧ tdiv (-7) 2 = -3 ∧ tdiv (-5) 8 = 0 ∧ tdiv (-267386880) 7 = -38198125 ∧
    tdiv 267386880 1048575 = 255 := by decide

/-- A2: halves round up, and the clamp holds at both ends of the register. -/
theorem test_clampq :
    [0, 524287, 524288, 66846720, 133693440, 200540160, 266862591, 266862592, 267911168, 2147483647, -1, -524289,
      -2147483648].map (fun v => (clampq (BitVec.ofInt 32 v)).toNat) =
    [0, 0, 1, 64, 128, 191, 254, 255, 255, 255, 0, 0, 0] := by decide

/-- A3. -/
theorem test_floors :
    entryLen 0 = 1 ∧ entryLen 4 = 4 ∧ entryLen 1048575 = 1048575 ∧ remainLen 8 30 100 = 70 ∧ remainLen 8 30 38 = 8 ∧
    remainLen 8 30 10 = 8 := by decide

/-- A5. -/
theorem test_derived_lengths :
    inclineLen 10 52429 = 8 ∧ declineLen 10 52429 = 1 ∧ inclineLen 1048575 65535 = 1048559 ∧
    declineLen 1048575 65535 = 15 ∧ inclineLen 6 65536 = 6 ∧ declineLen 6 65536 = 0 := by decide

/-! ## One step of every operation -/

/-- What a step leaves, read by `f`; none if it gives no next state. -/
def after {α : Type} (o : Host.Outcome State Fault Refusal) (f : State → α) : Option α :=
  match o with
  | .next t => some (f t)
  | .fault _ => none
  | .refused _ => none

/-- A ramp from its four registers as numbers. -/
def ramp (value slope : Int) (phase len : Nat) : Ramp :=
  ⟨BitVec.ofInt 32 value, BitVec.ofInt 32 slope, BitVec.ofNat 32 phase, BitVec.ofNat 32 len⟩

/-- An envelope configured as in S1, with both handlers. -/
def envAt (st : EnvState) (r : Ramp) : State :=
  { State.reset with
    env := { State.reset.env with
      state := st
      ramp := r
      atkLen := 4
      decLen := 4
      relLen := 4
      susLev := 128
      eod := ⟨0x000D, 0x111⟩
      eor := ⟨0x000E, 0x222⟩ } }

/-- An oscillator of period 10 and duty one half (S2). -/
def lfoAt (st : LfoState) (r : Ramp) : State :=
  { State.reset with
    lfo := { State.reset.lfo with
      state := st
      ramp := r
      period := 10
      duty := 32768
      lenIncline := 5
      lenDecline := 5 } }

/-- A gated sequencer with the steps `(0, 2)`, `(255, 2)`, glide 1 and a handler (S3), at step `idx`. -/
def seqAt (idx : BitVec 8) (tgt : Level) (glEnd : Counter) (r : Ramp) : State :=
  { State.reset with
    seq := { State.reset.seq with
      steps := [(0, ⟨0, 2⟩), (1, ⟨255, 2⟩)]
      nSteps := 2
      stepIdx := idx
      glidelen := 1
      gated := true
      eos := ⟨7, 0xABC⟩
      ramp := r
      tgt := tgt
      glEnd := glEnd
      rstPending := false } }

/-- R122, example: the last tick of an attack. -/
theorem test_env_render_tick :
    after (exec .envRender (envAt .attack (ramp 200540160 66846720 3 4))) (fun t => (t.env.state, t.env.ramp, t.rsp)) =
      some (.attack, ramp 267386880 66846720 4 4, some ⟨.ok, 255⟩) := by decide

/-- S1, render 9: Decay ends, Sustain is entered and `EOD` fires. -/
theorem test_env_render_end_of_decay :
    after (exec .envRender (envAt .decay (ramp 134217728 (-33292288) 4 4)))
      (fun t => (t.env.state, t.env.ramp, t.rsp, t.evt.map Event.word)) =
      some (.sustain, ramp 134217728 0 0 0, some ⟨.ok, 128⟩, some 0x1000D00000111) := by decide

/-- R123, example. -/
theorem test_env_atk :
    after (exec (.envAtk 50)
      { envAt .attack (ramp 80216064 0 30 100) with
        env := { (envAt .attack (ramp 80216064 0 30 100)).env with atkLen := 100 } })
      (fun t => (t.env.atkLen, t.env.ramp)) = some (50, ramp 80216064 9358540 30 50) := by decide

/-- R124, example. -/
theorem test_env_dec :
    after (exec (.envDec 100) (envAt .decay (ramp 234094592 (-33292288) 1 4))) (fun t => (t.env.decLen, t.env.ramp)) =
      some (100, ramp 234094592 (-1008857) 1 100) := by decide

/-- R125, example: Sustain goes to SustainAdjust. -/
theorem test_env_sus :
    after (exec (.envSus 200) (envAt .sustain (ramp 134217728 0 0 0)))
      (fun t => (t.env.susLev, t.env.state, t.env.ramp)) =
      some (200, .sustainAdjust, ramp 134217728 9437184 0 8) := by decide

/-- R125: a level equal to the current one does nothing even in Sustain. -/
theorem test_env_sus_same :
    after (exec (.envSus 128) (envAt .sustain (ramp 134217728 0 0 0))) (fun t => t.env.state) = some .sustain := by
  decide

/-- R126, example: the floor `MIN_RECOMP_LEN`. -/
theorem test_env_rel :
    after (exec (.envRel 0) (envAt .release (ramp 67108864 (-33554432) 2 4))) (fun t => (t.env.relLen, t.env.ramp)) =
      some (0, ramp 67108864 (-8388608) 2 10) := by decide

/-- R127: the running ramp is not touched. -/
theorem test_env_retrig :
    after (exec (.envRetrig true) (envAt .decay (ramp 1 2 3 4))) (fun t => (t.env.retrigger, t.env.ramp)) =
      some (true, ramp 1 2 3 4) := by decide

/-- R128, example: Release from the current value. -/
theorem test_env_gate_off :
    after (exec (.envGate false) (envAt .sustain (ramp 134217728 0 0 0))) (fun t => (t.env.state, t.env.ramp)) =
      some (.release, ramp 134217728 (-33554432) 0 4) := by decide

/-- R128: a gate acts from Attack itself, and fires nothing. -/
theorem test_env_gate_on_again :
    after (exec (.envGate true) (envAt .attack (ramp 200540160 66846720 3 4)))
      (fun t => (t.env.state, t.env.ramp, t.evt)) = some (.attack, ramp 200540160 16711680 0 4, none) := by decide

/-- R129, R130, examples. -/
theorem test_env_heod :
    after (exec (.envHeod 0x000D 0x111) State.reset) (fun t => (t.env.eod, t.env.eor)) =
      some (⟨0x000D, 0x111⟩, ⟨0, 0⟩) := by decide
theorem test_env_heor :
    after (exec (.envHeor 0x000E 0x222) State.reset) (fun t => (t.env.eod, t.env.eor)) =
      some (⟨0, 0⟩, ⟨0x000E, 0x222⟩) := by decide

/-- R151, example: the flip makes the first accumulation of the new state. -/
theorem test_lfo_render_flip :
    after (exec .lfoRender (lfoAt .incline (ramp 267386880 53477376 5 5))) (fun t => (t.lfo.state, t.lfo.ramp, t.rsp)) =
      some (.decline, ramp 213909504 (-53477376) 1 5, some ⟨.ok, 204⟩) := by decide

/-- R152, example. -/
theorem test_lfo_period :
    after (exec (.lfoPeriod 100) (lfoAt .incline (ramp 106954752 53477376 2 5)))
      (fun t => (t.lfo.period, t.lfo.lenIncline, t.lfo.lenDecline, t.lfo.ramp)) =
      some (100, 50, 50, ramp 106954752 3342336 2 50) := by decide

/-- R153, example. -/
theorem test_lfo_duty :
    after (exec (.lfoDuty 52429) (lfoAt .incline (ramp 106954752 53477376 2 5)))
      (fun t => (t.lfo.duty, t.lfo.lenIncline, t.lfo.lenDecline, t.lfo.ramp)) =
      some (52429, 8, 1, ramp 106954752 20054016 2 10) := by decide

/-- R172, example: an advance without a wrap. -/
theorem test_seq_render_advance :
    after (exec .seqRender (seqAt 0 0 1 (ramp 0 0 2 2)))
      (fun t => (t.seq.stepIdx, t.seq.tgt, t.seq.ramp, t.rsp.map Response.word, t.evt)) =
      some (1, 255, ramp 267386880 267386880 1 2, some 0x000FF, none) := by decide

/-- S3, render 5: the wrap fires `EOS`. -/
theorem test_seq_render_wrap :
    after (exec .seqRender (seqAt 1 255 1 (ramp 267386880 267386880 2 2)))
      (fun t => (t.seq.stepIdx, t.seq.ramp, t.rsp, t.evt.map Event.word)) =
      some (0, ramp 0 (-267386880) 1 2, some ⟨.ok, 0⟩, some 0x3000700000ABC) := by decide

/-- R173, R174, Q9: clamped, and the running step keeps its length. -/
theorem test_seq_steplen :
    after (exec (.seqSteplen 2000000) (seqAt 0 0 1 (ramp 0 0 1 2))) (fun t => (t.seq.steplen, t.seq.ramp.len)) =
      some (1048575, 2) := by decide
theorem test_seq_glide :
    after (exec (.seqGlide (-1)) (seqAt 0 0 1 (ramp 0 0 1 2))) (fun t => (t.seq.glidelen, t.seq.glEnd)) =
      some (0, 1) := by decide

/-- R175, example (with `steplen` 0): the level is clamped. -/
theorem test_seq_append :
    after (exec (.seqAppend 300) State.reset) (fun t => (t.seq.steps, t.seq.nSteps, t.seq.rstPending)) =
      some ([(0, ⟨255, 0⟩)], 1, true) := by decide

/-- Q3. -/
theorem test_seq_appendl :
    after (exec (.seqAppendl 8 (-1)) (seqAt 0 0 1 (ramp 0 0 1 2))) (fun t => (t.seq.steps, t.seq.nSteps, t.rsp)) =
      some ([(0, ⟨0, 2⟩), (1, ⟨255, 2⟩), (2, ⟨8, 0⟩)], 3, some ⟨.ok, 0⟩) := by decide

/-- Q1: `FULL` at `SEQ_CAP = 16`, nothing changes. -/
theorem test_seq_appendl_full :
    after (exec (.seqAppendl 160 2) { State.reset with seq := { State.reset.seq with nSteps := 16 } })
      (fun t => (t.seq.nSteps, t.seq.steps, t.rsp.map Response.word)) = some (16, [], some 0x10000) := by decide

/-- R177, example, Q10 row 3. -/
theorem test_seq_setstep :
    after (exec (.seqSetstep 1 100) (seqAt 1 255 1 (ramp 267386880 267386880 1 2)))
      (fun t => (t.seq.steps, t.seq.tgt, t.seq.glEnd, t.seq.ramp)) =
      some ([(0, ⟨0, 2⟩), (1, ⟨100, 2⟩)], 100, 2, ramp 267386880 (-162529280) 1 2) := by decide

/-- Q10 row 2: a step that is not the active one changes only the store. -/
theorem test_seq_setstep_other :
    after (exec (.seqSetstep 0 40) (seqAt 1 255 1 (ramp 267386880 267386880 1 2)))
      (fun t => (t.seq.steps, t.seq.tgt, t.seq.glEnd, t.seq.ramp)) =
      some ([(0, ⟨40, 2⟩), (1, ⟨255, 2⟩)], 255, 1, ramp 267386880 267386880 1 2) := by decide

/-- R178, example, Q11 rows 2 and 3. -/
theorem test_seq_setstepl :
    after (exec (.seqSetstepl 0 0 100) (seqAt 0 0 1 (ramp 0 0 1 2))) (fun t => (t.seq.steps.head?, t.seq.ramp)) =
      some (some (0, ⟨0, 100⟩), ramp 0 0 1 100) := by decide
theorem test_seq_setstepl_floor :
    after (exec (.seqSetstepl 0 0 1) (seqAt 0 0 1 (ramp 0 0 1 2))) (fun t => (t.seq.steps.head?, t.seq.ramp)) =
      some (some (0, ⟨0, 1⟩), ramp 0 0 1 9) := by decide

/-- R179, Q8: the store is not erased. -/
theorem test_seq_clear :
    after (exec .seqClear (seqAt 1 255 1 (ramp 5 6 1 2)))
      (fun t => (t.seq.nSteps, t.seq.stepIdx, t.seq.rstPending, t.seq.steps.length, t.seq.ramp)) =
      some (0, 0, true, 2, ramp 5 6 1 2) := by decide

/-- R180: nothing else is written. -/
theorem test_seq_gate :
    after (exec (.seqGate false) (seqAt 1 255 1 (ramp 5 6 1 2))) (fun t => (t.seq.gated, t.seq.ramp, t.seq.stepIdx)) =
      some (false, ramp 5 6 1 2, 1) := by decide

/-- R181, Q7 row 5. -/
theorem test_seq_reset :
    after (exec .seqReset (seqAt 1 255 1 (ramp 5 6 1 2))) (fun t => (t.seq.rstPending, t.seq.ramp, t.seq.stepIdx)) =
      some (true, ramp 5 6 1 2, 1) := by decide

/-- R182, example. -/
theorem test_seq_heos :
    after (exec (.seqHeos 7 0xABC) State.reset) (fun t => t.seq.eos) = some ⟨7, 0xABC⟩ := by decide

/-- R183, example. -/
theorem test_seq_nsteps :
    after (exec .seqNsteps (seqAt 0 0 1 (ramp 0 0 1 2))) (fun t => t.rsp.map Response.word) = some (some 2) := by decide

/-- R184: the running step's `len` is not changed. -/
theorem test_seq_uniform :
    after (exec (.seqUniform true) (seqAt 0 0 1 (ramp 0 0 1 9))) (fun t => (t.seq.uniformStep, t.seq.ramp.len)) =
      some (true, 9) := by decide

/-! ## The step -/

/-- Z2: the word placed by `withFetchWord` is the one the next step runs, ignored fields and all. -/
theorem test_step_runs_the_word :
    after (step (State.reset.withFetchWord 64 0x3BFF123400005678)) (fun t => (t.rsp.map Response.word, t.inputs)) =
      some (some 0, []) := by decide

/-- Z1: `rsp = 2/0`, 18 bits `0x20000` (S1). -/
theorem test_step_illegal :
    after (step (State.reset.withFetchWord 64 0x4000000000000000)) (fun t => (t.rsp.map Response.word, t.evt)) =
      some (some 0x20000, none) := by decide

/-- R230: `rst` restores the reset state of the units. -/
theorem test_step_rst :
    after (step { envAt .decay (ramp 1 2 3 4) with inputs := [.rst] }) (fun t => (t.env, t.seq.rstPending)) =
      some (State.reset.env, true) := by decide

/-! ## Witnesses: concrete states and operands that meet the hypotheses of every statement -/

/-- The units of a sample state that its helper leaves as they are. -/
theorem sample_params : Params.vectors.Legal := by decide
theorem sample_env : EnvInv (Env.resetWith Params.vectors) := ⟨by decide, rfl⟩
theorem sample_lfo : LfoInv (Lfo.resetWith Params.vectors) := by decide
theorem sample_seq : SeqInv Params.vectors (Seq.resetWith Params.vectors) := by decide

theorem inv_envAt {st : EnvState} {r : Ramp} (h : EnvInv (envAt st r).env) : Inv (envAt st r) :=
  ⟨sample_params, h, sample_lfo, sample_seq⟩

theorem inv_lfoAt {st : LfoState} {r : Ramp} (h : LfoInv (lfoAt st r).lfo) : Inv (lfoAt st r) :=
  ⟨sample_params, sample_env, h, sample_seq⟩

theorem inv_seqAt {idx : BitVec 8} {tgt : Level} {ge : Counter} {r : Ramp}
    (h : SeqInv Params.vectors (seqAt idx tgt ge r).seq) : Inv (seqAt idx tgt ge r) :=
  ⟨sample_params, sample_env, sample_lfo, h⟩

theorem inv_attack {r : Ramp} (h : r.RunsTo (fx levMax)) : Inv (envAt .attack r) := inv_envAt ⟨Nat.zero_le _, h⟩
theorem inv_decay {r : Ramp} (h : r.RunsTo (fx 128)) : Inv (envAt .decay r) := inv_envAt ⟨Nat.zero_le _, h⟩
theorem inv_adjust {r : Ramp} (h : r.RunsTo (fx 128)) : Inv (envAt .sustainAdjust r) := inv_envAt ⟨Nat.zero_le _, h⟩
theorem inv_release {r : Ramp} (h : r.RunsTo (fx levMin)) : Inv (envAt .release r) := inv_envAt ⟨Nat.zero_le _, h⟩
theorem inv_sustain : Inv (envAt .sustain (ramp 134217728 0 0 0)) := inv_envAt ⟨Nat.zero_le _, rfl⟩
theorem inv_idle : Inv (envAt .idle (ramp 0 0 0 0)) := inv_envAt ⟨Nat.zero_le _, rfl⟩

theorem witness_EncodeThenDecodeIsIdentity :
    (Instr.seqSetstepl 255 (-32768) 2147483647).wellFormed = true ∧ (Instr.envAtk (-2147483648)).wellFormed = true := by
  decide

theorem witness_DecodedOperandsAreInRange : decode 0x36FF7FFF80000000 = .ok (.seqSetstepl 255 32767 (-2147483648)) := by
  decide

/-- Words whose opcode reads no field, `A` only, `IDX` and `A`, `B` only, each with every ignored field filled. -/
theorem witness_IgnoredFieldsDoNotMatter :
    (opField 0x10FFFFFFFFFFFFFF = opField 0x1000000000000000 ∧ (opField 0x10FFFFFFFFFFFFFF).toNat ∉ opsReadingIdx ∧
      (opField 0x10FFFFFFFFFFFFFF).toNat ∉ opsReadingA ∧ (opField 0x10FFFFFFFFFFFFFF).toNat ∉ opsReadingB) ∧
    (opField 0x16AB0001DEADBEEF = opField 0x1600000100000001 ∧ (opField 0x16AB0001DEADBEEF).toNat ∈ opsReadingA ∧
      aField 0x16AB0001DEADBEEF = aField 0x1600000100000001) ∧
    (opField 0x35010007DEADBEEF = opField 0x3501000700000000 ∧ (opField 0x35010007DEADBEEF).toNat ∈ opsReadingIdx ∧
      idxField 0x35010007DEADBEEF = idxField 0x3501000700000000 ∧ aField 0x35010007DEADBEEF = aField 0x3501000700000000 ∧
      (opField 0x35010007DEADBEEF).toNat ∉ opsReadingB) ∧
    (opField 0x11ABCDEF00000004 = opField 0x1100000000000004 ∧ (opField 0x11ABCDEF00000004).toNat ∈ opsReadingB ∧
      bField 0x11ABCDEF00000004 = bField 0x1100000000000004 ∧ (opField 0x11ABCDEF00000004).toNat ∉ opsReadingA) := by
  decide

theorem witness_StepRunsTheDecodedOperation :
    (State.reset.withFetchWord 64 0x11FFFFFF00000004).inputs = .cmd 0x11FFFFFF00000004 :: [] ∧
      decode 0x11FFFFFF00000004 = .ok (.envAtk 4) := by decide

/-- Both ends of each of the four ranges of illegal opcodes (R91). -/
theorem witness_IllegalOpcodeChangesNothing :
    (State.reset.withFetchWord 64 0x3D00000000000000).inputs = .cmd 0x3D00000000000000 :: [] ∧
    (IllegalOp 0x0000000000000000 ∧ IllegalOp 0x0F00000000000000) ∧ (IllegalOp 0x1900000000000000 ∧
    IllegalOp 0x1F00000000000000) ∧ (IllegalOp 0x2300000000000000 ∧ IllegalOp 0x2F00000000000000) ∧
    IllegalOp 0x3D00000000000000 ∧ IllegalOp 0xFF00000000000000 := by
  unfold IllegalOp; decide

theorem witness_ResetInputRestoresTheResetState :
    ({ State.reset with inputs := [.rst, .cmd 0] } : State).inputs = .rst :: [.cmd 0] := rfl

theorem witness_IdleStepChangesNoRegister : (envAt .attack (ramp 0 1 0 1)).inputs = [] := rfl

/-- Both ends of the ranges of R10 and R13. -/
theorem witness_ResetMeetsTheInvariant :
    ({ Params.vectors with minRecompLen := 1, seqCap := 1 } : Params).Legal ∧
    ({ Params.vectors with minRecompLen := 1048575, seqCap := 256 } : Params).Legal := by decide

theorem witness_EveryStepKeepsTheInvariant :
    Inv (envAt .idle (ramp 0 0 0 0)) ∧ ∃ t, step ((envAt .idle (ramp 0 0 0 0)).withFetchWord 64 0x1600000100000000) = .next t :=
  ⟨inv_idle, _, rfl⟩

/-- The room is met with phases as far as a ramp of `LEN_MAX` ticks takes them. -/
theorem witness_NoInputStopsTheCore :
    Inv (envAt .attack (ramp 267386880 0 1048575 1048575)) ∧ CounterRoom (envAt .attack (ramp 267386880 0 1048575 1048575)) :=
  ⟨inv_attack (by decide), by decide⟩

theorem witness_NoStepChangesTheParameters : ∃ t, step (State.reset.withFetchWord 64 0x2000000000000000) = .next t :=
  ⟨_, rfl⟩

theorem witness_UnitsAreIndependent :
    (unitOf .envRender = .env ∧ unitOf (.lfoDuty 5) = .lfo ∧ unitOf .seqRender = .seq) ∧
    (∃ t, exec .envRender (envAt .sustain (ramp 134217728 0 0 0)) = .next t) ∧ (∃ t, exec (.lfoDuty 5) State.reset = .next t) ∧
    ∃ t, exec .seqRender (seqAt 0 0 1 (ramp 0 0 2 2)) = .next t :=
  ⟨by decide, ⟨_, rfl⟩, ⟨_, rfl⟩, ⟨_, rfl⟩⟩

/-- A transition with an event, and one without. -/
theorem witness_EnvelopeTransitionTable :
    after (exec .envRender (envAt .release (ramp 0 (-33554432) 4 4))) (fun t => t.env.state) = some .idle ∧
    after (exec (.envGate true) (envAt .release (ramp 0 (-33554432) 4 4))) (fun t => t.env.state) = some .attack := by decide

theorem witness_OscillatorFlipsOnlyAtTheEndOfARamp :
    after (exec .lfoRender (lfoAt .incline (ramp 267386880 53477376 5 5))) (fun t => t.lfo.state) = some .decline ∧
    after (exec .lfoRender (lfoAt .incline (ramp 213909504 53477376 4 5))) (fun t => t.lfo.state) = some .incline := by
  decide

theorem witness_EnvelopeRegistersWrittenOnlyByTheirOperations :
    after (exec (.envHeod 1 2) State.reset) (fun t => decide (t.env.eod ≠ State.reset.env.eod)) = some true ∧
    after (exec .envRender (envAt .attack (ramp 0 66846720 0 4))) (fun t => t.env.ramp.value.toInt) = some 66846720 ∧
    after (exec (.envSus 0) (envAt .sustain (ramp 134217728 0 0 0))) (fun t => (t.env.state, t.env.ramp.len)) =
      some (.sustainAdjust, 8) := by
  decide

/-- A new period in Incline at phase 2 (R152's example), and a flip (R151's example). -/
theorem witness_OscillatorRegistersWrittenOnlyByTheirOperations :
    after (exec (.lfoPeriod 100) (lfoAt .incline (ramp 106954752 53477376 2 5)))
      (fun t => (t.lfo.lenIncline, t.lfo.lenDecline, t.lfo.ramp.len, t.lfo.ramp.slope.toInt)) =
      some (50, 50, 50, 3342336) ∧
    after (exec .lfoRender (lfoAt .incline (ramp 267386880 53477376 5 5)))
      (fun t => (t.lfo.state, t.lfo.ramp.slope.toInt, t.lfo.ramp.phase)) = some (.decline, -53477376, 1) := by decide

/-- A clear, an advance, and a rewrite of both fields of the active step. -/
theorem witness_SequencerRegistersWrittenOnlyByTheirOperations :
    after (exec .seqClear (seqAt 1 255 1 (ramp 0 0 1 2))) (fun t => (t.seq.nSteps, t.seq.stepIdx, t.seq.rstPending)) =
      some (0, 0, true) ∧
    after (exec .seqRender (seqAt 0 0 1 (ramp 0 0 2 2))) (fun t => (t.seq.stepIdx, t.seq.out, t.seq.tgt)) =
      some (1, 255, 255) ∧
    after (exec (.seqSetstepl 0 8 3) (seqAt 0 0 1 (ramp 0 0 1 2))) (fun t => (t.seq.tgt, t.seq.glEnd, t.seq.ramp.len)) =
      some (8, 2, 9) := by decide

/-- An append below the capacity and a rewrite of the last entry of the sequence. -/
theorem witness_StoreIsWrittenOnlyAtTheAddressedEntry :
    after (exec (.seqAppend 7) (seqAt 0 0 1 (ramp 0 0 1 2))) (fun t => Memory.read t.seq.steps 2) = some (some ⟨7, 0⟩) ∧
    after (exec (.seqSetstep 1 7) (seqAt 0 0 1 (ramp 0 0 1 2))) (fun t => Memory.read t.seq.steps 1) = some (some ⟨7, 2⟩) := by
  decide

theorem witness_EveryOperationAnswersItsResponse :
    after (exec .seqNsteps (seqAt 0 0 1 (ramp 0 0 1 2))) (fun t => t.rsp) = some (okWith 2) ∧
    after (exec (.seqAppend 7) { State.reset with seq := { State.reset.seq with nSteps := 16 } }) (fun t => t.rsp) =
      some (some ⟨.full, 0⟩) := by decide

theorem witness_EventsFireExactlyAtTheirRenders :
    after (exec .envRender (envAt .decay (ramp 134217728 0 4 4))) (fun t => t.evt) = some (some ⟨.eod, 0x000D, 0x111⟩) ∧
    after (exec .envRender (envAt .release (ramp 0 0 4 4))) (fun t => t.evt) = some (some ⟨.eor, 0x000E, 0x222⟩) ∧
    after (exec .seqRender (seqAt 1 255 1 (ramp 0 0 2 2))) (fun t => t.evt) = some (some ⟨.eos, 7, 0xABC⟩) ∧
    after (exec .seqRender (seqAt 0 0 1 (ramp 0 0 2 2))) (fun t => t.evt) = some none := by decide

/-- Each register at a bound of its range, set by an operand beyond it. -/
theorem witness_SetterWithTheCurrentValueIsANoOp :
    lenOf (-1) = (0 : Length).toNat ∧ lenOf 2000000 = (1048575 : Length).toNat ∧ levelOf (-1) = (0 : Level).toNat ∧
    levelOf 300 = (255 : Level).toNat ∧ dutyOf 70000 = (65536 : Duty).val := by decide

/-- The first phase at which `phase + 8` does not fit. -/
theorem witness_CounterOverflowIsRefused :
    Inv (envAt .attack (ramp 267386880 0 4294967288 4294967288)) ∧ lenOf 0 ≠ (4 : Length).toNat ∧
      ¬ Fits 4294967288 (remainTicks Params.vectors 4294967288 (lenOf 0)) :=
  ⟨inv_attack (by decide), by decide, by unfold Fits; decide⟩

theorem witness_SlopeDivisionRoundsTowardZero : (1 : Nat) ≤ 1 ∧ (0 : Int) ≤ 7 ∧ (-7 : Int) < 0 := by decide

theorem witness_QuantizerRoundsHalfUpAndClamps :
    InRange (BitVec.ofInt 32 267386880 : Acc).toInt ∧ InRange (0 : Acc).toInt ∧
      (0 : Acc).toInt ≤ (BitVec.ofInt 32 267386880 : Acc).toInt := by decide

theorem witness_DerivedLengthsSumToThePeriod : (10 : Length).toNat * (32768 : Duty).val % 65536 = 0 := by decide

/-- A ramp over `LEN_MAX` ticks, and one that ends on the last counter value. -/
theorem witness_RampNeverOvershoots :
    InRange (ramp 0 0 0 0).value.toInt ∧ InRange 267386880 ∧ Fits (ramp 0 0 0 0).phase 1048575 ∧
      Fits (ramp 0 0 4294967294 0).phase 1 := by
  unfold Fits; decide

theorem witness_RampEndsWithinOneLevelOfItsTarget :
    rampTo (ramp 0 0 0 0) 267386880 2 = .next (ramp 0 133693440 0 2) ∧
      accumulateTimes 2 (ramp 0 133693440 0 2) = .next (ramp 267386880 133693440 2 2) := ⟨rfl, rfl⟩

theorem witness_RenderInAHoldState :
    Inv (envAt .idle (ramp 0 0 0 0)) ∧ Inv (envAt .sustain (ramp 134217728 0 0 0)) := ⟨inv_idle, inv_sustain⟩

/-- The first and the last tick of a ramp state. -/
theorem witness_RenderWithinARampState :
    Inv (envAt .attack (ramp 0 66846720 0 4)) ∧ Inv (envAt .release (ramp 33554432 (-33554432) 3 4)) :=
  ⟨inv_attack (by decide), inv_release (by decide)⟩

/-- One state for each clause: the end of Attack, Decay, SustainAdjust and Release; Decay with `retrigger`. -/
theorem witness_RenderAtTheEndOfARampState :
    Inv (envAt .attack (ramp 267386880 66846720 4 4)) ∧ Inv (envAt .decay (ramp 134217728 (-33292288) 4 4)) ∧
    Inv (envAt .sustainAdjust (ramp 134217728 9437184 8 8)) ∧ Inv (envAt .release (ramp 0 (-33554432) 4 4)) ∧
    after (exec (.envRetrig true) (envAt .decay (ramp 134217728 (-33292288) 4 4))) (fun t => t.env.retrigger) = some true :=
  ⟨inv_attack (by decide), inv_decay (by decide), inv_adjust (by decide), inv_release (by decide), by decide⟩

/-- The state active and a new length, at the last phase where it fits; and another state active. -/
theorem witness_AttackLengthSetter :
    Inv (envAt .attack (ramp 267386880 0 4294967287 4294967287)) ∧ lenOf 0 ≠ (4 : Length).toNat ∧
    Fits 4294967287 (remainTicks Params.vectors 4294967287 (lenOf 0)) ∧ Inv (envAt .idle (ramp 0 0 0 0)) :=
  ⟨inv_attack (by decide), by decide, by unfold Fits; decide, inv_idle⟩

theorem witness_DecayLengthSetter :
    Inv (envAt .decay (ramp 234094592 (-33292288) 1 4)) ∧ lenOf 100 ≠ (4 : Length).toNat ∧
    Fits 1 (remainTicks Params.vectors 1 (lenOf 100)) :=
  ⟨inv_decay (by decide), by decide, by unfold Fits; decide⟩

theorem witness_ReleaseLengthSetter :
    Inv (envAt .release (ramp 67108864 (-33554432) 2 4)) ∧ lenOf 0 ≠ (4 : Length).toNat ∧
    Fits 2 (remainTicks Params.vectors 2 (lenOf 0)) :=
  ⟨inv_release (by decide), by decide, by unfold Fits; decide⟩

/-- One state for each clause, with a new level; the level 300 is a new one too. -/
theorem witness_SustainLevelSetter :
    Inv (envAt .decay (ramp 234094592 (-33292288) 1 4)) ∧ Fits 1 (remainTicks Params.vectors 1 4) ∧
    Inv (envAt .sustain (ramp 134217728 0 0 0)) ∧ Inv (envAt .sustainAdjust (ramp 134217728 0 0 8)) ∧ Fits 0 8 ∧
    Inv (envAt .idle (ramp 0 0 0 0)) ∧ Inv (envAt .attack (ramp 0 66846720 0 4)) ∧
    Inv (envAt .release (ramp 0 0 4 4)) ∧ levelOf 300 ≠ (128 : Level).toNat ∧ levelOf 128 = (128 : Level).toNat :=
  ⟨inv_decay (by decide), by unfold Fits; decide, inv_sustain, inv_adjust (by decide), by unfold Fits; decide, inv_idle,
    inv_attack (by decide), inv_release (by decide), by decide, by decide⟩

theorem witness_GateEntersAttackOrRelease : Inv (envAt .attack (ramp 200540160 66846720 3 4)) := inv_attack (by decide)

/-- With `atk_len = 4`, and with `atk_len = 0`, which counts as 1. -/
theorem witness_AttackFromIdleRunsForItsLength :
    Inv (envAt .idle (ramp 0 0 0 0)) ∧ (1 : Int) ≤ entryTicks (4 : Length).toNat ∧
      (1 : Int) = entryTicks (0 : Length).toNat := ⟨inv_idle, by decide, by decide⟩

/-- One state for each clause: within a ramp, the end of Incline and the end of Decline. -/
theorem witness_OscillatorRender :
    Inv (lfoAt .incline (ramp 0 53477376 0 5)) ∧ Inv (lfoAt .incline (ramp 267386880 53477376 5 5)) ∧
      Inv (lfoAt .decline (ramp 0 (-53477376) 5 5)) :=
  ⟨inv_lfoAt ⟨Nat.zero_le _, by decide, rfl, rfl⟩, inv_lfoAt ⟨Nat.zero_le _, by decide, rfl, rfl⟩,
    inv_lfoAt ⟨Nat.zero_le _, by decide, rfl, rfl⟩⟩

theorem witness_PeriodSetter :
    Inv (lfoAt .incline (ramp 106954752 53477376 2 5)) ∧ lenOf 100 ≠ (10 : Length).toNat ∧
    (∀ c : Int, c = lenOf 100 * (32768 : Duty).val / 65536 → Fits 2 (remainTicks Params.vectors 2 c)) ∧
    Inv (lfoAt .decline (ramp 0 (-53477376) 5 5)) :=
  ⟨inv_lfoAt ⟨Nat.zero_le _, by decide, rfl, rfl⟩, by decide, by rintro c rfl; unfold Fits; decide,
    inv_lfoAt ⟨Nat.zero_le _, by decide, rfl, rfl⟩⟩

theorem witness_DutySetter :
    Inv (lfoAt .incline (ramp 106954752 53477376 2 5)) ∧ dutyOf 70000 ≠ (32768 : Duty).val ∧
    (∀ c : Int, c = (10 : Length).toNat * dutyOf 70000 / 65536 → Fits 2 (remainTicks Params.vectors 2 c)) ∧
    Inv (lfoAt .decline (ramp 0 (-53477376) 5 5)) :=
  ⟨inv_lfoAt ⟨Nat.zero_le _, by decide, rfl, rfl⟩, by decide, by rintro c rfl; unfold Fits; decide,
    inv_lfoAt ⟨Nat.zero_le _, by decide, rfl, rfl⟩⟩

/-- Gated with no steps, and ungated with steps. -/
theorem witness_SequencerRenderHoldsWhenUngatedOrEmpty :
    (State.reset.seq.gated = false ∧ State.reset.seq.nSteps.toNat = 0) ∧
    after (exec (.seqGate false) (seqAt 0 0 1 (ramp 0 0 1 2))) (fun t => t.seq.gated) = some false := by decide

/-- A glide tick and a hold tick. -/
theorem witness_SequencerRenderWithinAStep :
    (Inv (seqAt 1 255 1 (ramp 0 267386880 0 2)) ∧ (0 : Counter).toNat < (1 : Counter).toNat) ∧
    Inv (seqAt 1 255 1 (ramp 267386880 267386880 1 2)) :=
  ⟨⟨inv_seqAt (by decide), by decide⟩, inv_seqAt (by decide)⟩

/-- An advance to the next step, a wrap, and a pending reset. -/
theorem witness_SequencerRenderAdvances :
    Inv (seqAt 0 0 1 (ramp 0 0 2 2)) ∧ Inv (seqAt 1 255 1 (ramp 267386880 267386880 2 2)) ∧
    (seqAt 1 255 1 (ramp 267386880 267386880 2 2)).seq.nSteps.toNat = 2 ∧
    after (exec .seqReset (seqAt 0 0 1 (ramp 0 0 1 2))) (fun t => t.seq.rstPending) = some true :=
  ⟨inv_seqAt (by decide), inv_seqAt (by decide), by decide, by decide⟩

/-- The store full, and an empty one. -/
theorem witness_AppendsWriteTheNextEntryOrAnswerFull :
    (State.reset.params.seqCap ≤ ({ State.reset.seq with nSteps := 16 } : Seq).nSteps.toNat) ∧
    Inv (envAt .idle (ramp 0 0 0 0)) ∧
    (envAt .idle (ramp 0 0 0 0)).seq.nSteps.toNat < (envAt .idle (ramp 0 0 0 0)).params.seqCap :=
  ⟨by decide, inv_idle, by decide⟩

theorem witness_RewriteOutOfRangeIsIgnored : (seqAt 0 0 1 (ramp 0 0 1 2)).seq.nSteps.toNat ≤ 2 := by decide

/-- The active step with a new value and the same value, and the last step, which is not active. -/
theorem witness_RewriteOfAStepValue :
    Inv (seqAt 0 0 1 (ramp 0 0 1 2)) ∧ 0 < (seqAt 0 0 1 (ramp 0 0 1 2)).seq.nSteps.toNat ∧
    Fits 1 (entryTicks (1 : Length).toNat) ∧ levelOf 100 ≠ 0 ∧ levelOf (-4) = 0 ∧
    1 < (seqAt 0 0 1 (ramp 0 0 1 2)).seq.nSteps.toNat :=
  ⟨inv_seqAt (by decide), by decide, by unfold Fits; decide, by decide, by decide, by decide⟩

theorem witness_RewriteOfAStepValueAndLength :
    Inv (seqAt 0 0 1 (ramp 0 0 1 2)) ∧ 1 < (seqAt 0 0 1 (ramp 0 0 1 2)).seq.nSteps.toNat ∧
    Fits 1 (entryTicks (1 : Length).toNat) ∧ Fits 1 (remainTicks Params.vectors 1 (lenOf 100)) ∧
    lenOf 100 ≠ (2 : Length).toNat ∧ lenOf 2 = (2 : Length).toNat :=
  ⟨inv_seqAt (by decide), by decide, by unfold Fits; decide, by unfold Fits; decide, by decide, by decide⟩

end Sys2Proof.Tests
end

section
/-! How the first input selects what a step does: proofs of the statements of the family `00_scope`. -/

namespace Sys2Proof.Machine

/-- A command word at the head of the stream is taken off it before its operation begins (R70). -/
theorem step_of_cmd {s : State} {w : CmdWord} {rest : List Input} (hin : s.inputs = .cmd w :: rest) :
    step s = runCommand w { s with inputs := rest } := by
  simp only [step, takeInput, hin]

/-- The operation of a word with a legal opcode is the meaning of what it decodes to (R19). -/
theorem runCommand_of_decode {w : CmdWord} {i : Instr} (hdec : decode w = .ok i) (s : State) :
    runCommand w s = exec i s := by
  simp only [runCommand, hdec]

/-- Settles O7: the step takes the word off the stream, and the word runs as the operation it decodes to. -/
theorem stepRunsTheDecodedOperation : Obligations.StepRunsTheDecodedOperation := by
  intro s w rest i hin hdec
  calc step s = runCommand w { s with inputs := rest } := step_of_cmd hin
    _ = exec i { s with inputs := rest } := runCommand_of_decode hdec _

end Sys2Proof.Machine
end

section
/-! Each operation acts on one unit: which unit, and that nothing but the parameters and the registers of that unit
enters its effect (R20). Everything about the other units follows from the one equation `exec_localTo`. -/

namespace Sys2Proof

open Machine Claims

/-- The unit of an operation, by constructor; `unitOf_eq_unit` ties it to the opcode. -/
def Instr.unit : Instr → Unit3
  | .envRender | .envAtk _ | .envDec _ | .envSus _ | .envRel _ | .envRetrig _ | .envGate _ | .envHeod _ _
  | .envHeor _ _ => .env
  | .lfoRender | .lfoPeriod _ | .lfoDuty _ => .lfo
  | .seqRender | .seqSteplen _ | .seqGlide _ | .seqAppend _ | .seqAppendl _ _ | .seqSetstep _ _ | .seqSetstepl _ _ _
  | .seqClear | .seqGate _ | .seqReset | .seqHeos _ _ | .seqNsteps | .seqUniform _ => .seq

theorem opField_encode (i : Instr) : opField (encode i) = Laws.Opcode.rowOpcode i := by
  cases i <;> exact Laws.Opcode.opField_packCmd _ _ _ _

theorem unitOf_eq_unit (i : Instr) : unitOf i = i.unit := by
  unfold unitOf
  rw [opField_encode]
  cases i <;> simp [Laws.Opcode.rowOpcode, Instr.unit]

namespace Machine

theorem andThen_assoc {α β γ : Type} (x : Res α) (f : α → Res β) (g : β → Res γ) :
    andThen (andThen x f) g = andThen x fun a => andThen (f a) g := by
  cases x <;> rfl

theorem andThen_ite {α β : Type} (c : Prop) [Decidable c] (x y : Res α) (f : α → Res β) :
    andThen (if c then x else y) f = if c then andThen x f else andThen y f :=
  apply_ite (fun x => andThen x f) c x y

/-- The registers of unit `u` are the same in both states. -/
def SameUnit : Unit3 → State → State → Prop
  | .env, s, s' => s.env = s'.env
  | .lfo, s, s' => s.lfo = s'.lfo
  | .seq, s, s' => s.seq = s'.seq

theorem SameUnit.refl (u : Unit3) (s : State) : SameUnit u s s := by cases u <;> rfl

/-- `s` with the registers of unit `u` and both ports as they are in `t`. -/
def State.graft : Unit3 → State → State → State
  | .env, s, t => { s with env := t.env, rsp := t.rsp, evt := t.evt }
  | .lfo, s, t => { s with lfo := t.lfo, rsp := t.rsp, evt := t.evt }
  | .seq, s, t => { s with seq := t.seq, rsp := t.rsp, evt := t.evt }

/-- What `op` does in a state, it does in every state with the same parameters and the same registers of unit `u`,
and only to those registers and the ports. -/
def LocalTo (u : Unit3) (op : State → Res State) : Prop :=
  ∀ s s' : State, s.params = s'.params → SameUnit u s s' → op s' = andThen (op s) fun t => .next (s'.graft u t)

theorem exec_localTo_env {i : Instr} (hi : i.unit = .env) : LocalTo .env (exec i) := by
  rintro ⟨p, e, l, q, ins, r, v⟩ ⟨_, _, l', q', ins', r', v'⟩ ⟨⟩ ⟨⟩
  match i, hi with
  | .envRender, _ => simp only [exec, execEnvRender, andThen_assoc]; rfl
  | .envAtk n, _ => simp only [exec, execEnvAtk, andThen_assoc, andThen_ite]; rfl
  | .envDec n, _ => simp only [exec, execEnvDec, andThen_assoc, andThen_ite]; rfl
  | .envSus v, _ => simp only [exec, execEnvSus, andThen_assoc, andThen_ite]; rfl
  | .envRel n, _ => simp only [exec, execEnvRel, andThen_assoc, andThen_ite]; rfl
  | .envRetrig b, _ => rfl
  | .envGate b, _ => simp only [exec, execEnvGate, andThen_assoc]; rfl
  | .envHeod h c, _ => rfl
  | .envHeor h c, _ => rfl

theorem exec_localTo_lfo {i : Instr} (hi : i.unit = .lfo) : LocalTo .lfo (exec i) := by
  rintro ⟨p, e, l, q, ins, r, v⟩ ⟨_, e', _, q', ins', r', v'⟩ ⟨⟩ ⟨⟩
  match i, hi with
  | .lfoRender, _ => simp only [exec, execLfoRender, andThen_assoc]; rfl
  | .lfoPeriod n, _ => simp only [exec, execLfoPeriod, andThen_assoc, andThen_ite]; rfl
  | .lfoDuty d, _ => simp only [exec, execLfoDuty, andThen_assoc, andThen_ite]; rfl

theorem seqAppendStep_localTo (x : Seq → Step) : LocalTo .seq fun s => seqAppendStep s (x s.seq) := by
  rintro ⟨p, e, l, q, ins, r, v⟩ ⟨_, e', l', _, ins', r', v'⟩ ⟨⟩ ⟨⟩
  simp only [seqAppendStep, andThen_assoc, andThen_ite]
  rfl

theorem exec_localTo_seq {i : Instr} (hi : i.unit = .seq) : LocalTo .seq (exec i) := by
  rintro ⟨p, e, l, q, ins, r, v⟩ ⟨_, e', l', _, ins', r', v'⟩ ⟨⟩ ⟨⟩
  match i, hi with
  | .seqRender, _ => simp only [exec, execSeqRender, andThen_assoc, andThen_ite (Seq.runs _ = true)]; rfl
  | .seqAppend v, _ => exact seqAppendStep_localTo (fun q => ⟨levelOperand v, q.steplen⟩) _ _ rfl rfl
  | .seqAppendl v n, _ => exact seqAppendStep_localTo (fun _ => ⟨levelOperand v, lenOperand n⟩) _ _ rfl rfl
  | .seqSetstep k v, _ => simp only [exec, execSeqSetstep, andThen_assoc, andThen_ite]; rfl
  | .seqSetstepl k v n, _ => simp only [exec, execSeqSetstepl, andThen_assoc, andThen_ite]; rfl
  | .seqSteplen n, _ => rfl
  | .seqGlide n, _ => rfl
  | .seqClear, _ => rfl
  | .seqGate b, _ => rfl
  | .seqReset, _ => rfl
  | .seqHeos h c, _ => rfl
  | .seqNsteps, _ => rfl
  | .seqUniform b, _ => rfl

/-- Every operation reads and writes its own unit only (R20). -/
theorem exec_localTo (i : Instr) : LocalTo i.unit (exec i) := by
  cases hi : i.unit
  · exact exec_localTo_env hi
  · exact exec_localTo_lfo hi
  · exact exec_localTo_seq hi

/-- The same operation from a state that agrees on the unit and the parameters (R20). -/
theorem exec_of_sameUnit {i : Instr} {s s' t : State} (hp : s.params = s'.params) (hu : SameUnit i.unit s s')
    (h : exec i s = .next t) : exec i s' = .next (s'.graft i.unit t) := by
  rw [exec_localTo i s s' hp hu, h, andThen_next]

/-- An operation changes its unit and the ports only (R20). -/
theorem exec_frame {i : Instr} {s t : State} (h : exec i s = .next t) : t = s.graft i.unit t := by
  have h' := exec_of_sameUnit rfl (SameUnit.refl i.unit s) h
  rw [h] at h'
  exact Host.Outcome.next.inj h'

@[simp] theorem State.graft_params (u : Unit3) (s t : State) : (s.graft u t).params = s.params := by cases u <;> rfl

theorem State.graft_env {u : Unit3} (hu : u ≠ .env) (s t : State) : (s.graft u t).env = s.env := by
  cases u
  · exact absurd rfl hu
  · rfl
  · rfl

theorem State.graft_lfo {u : Unit3} (hu : u ≠ .lfo) (s t : State) : (s.graft u t).lfo = s.lfo := by
  cases u
  · rfl
  · exact absurd rfl hu
  · rfl

theorem State.graft_seq {u : Unit3} (hu : u ≠ .seq) (s t : State) : (s.graft u t).seq = s.seq := by
  cases u
  · rfl
  · rfl
  · exact absurd rfl hu

section
variable {i : Instr} {s t : State} (h : exec i s = .next t)
include h

theorem exec_params : t.params = s.params := by
  rw [exec_frame h, State.graft_params]

theorem exec_env_of_other (hi : i.unit ≠ .env) : t.env = s.env := by
  rw [exec_frame h, State.graft_env hi]

theorem exec_lfo_of_other (hi : i.unit ≠ .lfo) : t.lfo = s.lfo := by
  rw [exec_frame h, State.graft_lfo hi]

theorem exec_seq_of_other (hi : i.unit ≠ .seq) : t.seq = s.seq := by
  rw [exec_frame h, State.graft_seq hi]

end

/-- Settles O18: the frame and the read independence of `exec_localTo`, for the unit at hand. -/
theorem unitsAreIndependent : Obligations.UnitsAreIndependent := by
  intro i s s' t hp h
  have same : SameUnit i.unit s s' → exec i s' = .next (s'.graft i.unit t) := fun hu => exec_of_sameUnit hp hu h
  rw [unitOf_eq_unit]
  refine ⟨fun hi => ⟨exec_lfo_of_other h (by simp [hi]), exec_seq_of_other h (by simp [hi]), fun he => ?_⟩,
    fun hi => ⟨exec_env_of_other h (by simp [hi]), exec_seq_of_other h (by simp [hi]), fun hl => ?_⟩,
    fun hi => ⟨exec_env_of_other h (by simp [hi]), exec_lfo_of_other h (by simp [hi]), fun hq => ?_⟩⟩
  all_goals rw [hi] at same
  · exact ⟨_, same he, rfl, rfl, rfl⟩
  · exact ⟨_, same hl, rfl, rfl, rfl⟩
  · exact ⟨_, same hq, rfl, rfl, rfl⟩

/-- All that a step can do, by what is presented (R80). -/
theorem step_eq_next {s t : State} (h : step s = .next t) :
    (s.inputs = [] ∧ t = { s with rsp := none, evt := none }) ∨
    (∃ rest, s.inputs = .rst :: rest ∧ t = { State.resetWith s.params with inputs := rest }) ∨
    ∃ w rest, s.inputs = .cmd w :: rest ∧
      (t = ({ s with inputs := rest } : State).answer .illegal 0 none ∨
        ∃ i, decode w = .ok i ∧ exec i { s with inputs := rest } = .next t) := by
  unfold step takeInput at h
  split at h
  case h_1 hin => exact .inl ⟨hin, (Host.Outcome.next.inj h).symm⟩
  case h_2 rest hin => exact .inr (.inl ⟨rest, hin, (Host.Outcome.next.inj h).symm⟩)
  case h_3 w rest hin =>
    refine .inr (.inr ⟨w, rest, hin, ?_⟩)
    unfold runCommand at h
    split at h
    case h_1 i hdec => exact .inr ⟨i, hdec, h⟩
    case h_2 => exact .inl (raiseStatus_eq_next.mp h)

/-- Settles O17: `rst` and the operations keep the parameters, and the other steps change no register. -/
theorem noStepChangesTheParameters : Obligations.NoStepChangesTheParameters := by
  intro s t h
  obtain ⟨-, rfl⟩ | ⟨rest, -, rfl⟩ | ⟨w, rest, -, rfl | ⟨i, -, hex⟩⟩ := step_eq_next h
  · rfl
  · rfl
  · rfl
  · exact exec_params (s := { s with inputs := rest }) hex

end Machine

end Sys2Proof
end

section
/-! The machine after reset and the step with nothing presented (R30, R38, R51, R230), and the derived lengths of the
oscillator (R35). -/

namespace Sys2Proof.Machine

open Claims

theorem step_of_no_input {s : State} (hin : s.inputs = []) : step s = idleStep s := by
  simp only [step, takeInput, hin]

/-- Settles O10: with nothing presented the step is the idle one, which only empties the ports. -/
theorem idleStepChangesNoRegister : Obligations.IdleStepChangesNoRegister := fun _ hin => step_of_no_input hin

/-- Settles O11: the reset state of `ENV` is the record R30 lists. -/
theorem envelopeAfterReset : Obligations.EnvelopeAfterReset := fun _ => rfl

/-- Settles O13: the reset state of `SEQ` is the record R51 lists, with an empty store. -/
theorem sequencerAfterReset : Obligations.SequencerAfterReset := fun _ => ⟨[], rfl⟩

/-- Settles O31: `period * duty` and `period * (65536 - duty)` add up to `period * 65536`, so their quotients by 65536
miss at most one. -/
theorem derivedLengthsSumToThePeriod : Obligations.DerivedLengthsSumToThePeriod := by
  intro p d
  have hsum : p.toNat * d.val + p.toNat * (65536 - d.val) = p.toNat * 65536 := by
    rw [← Nat.mul_add, Nat.add_sub_cancel' (by omega)]
  rw [inclineLen_toNat, declineLen_toNat]
  generalize p.toNat * d.val = a at *
  generalize p.toNat * (65536 - d.val) = b at *
  omega

/-- The ramp of `LFO` after reset is what `ramp_to(fx(LEV_MAX), entry_len(len_incline))` leaves from the zero ramp
(R38). -/
theorem rampTo_zero_lfo_reset (p : Params) :
    rampTo Ramp.zero (fx levMax) (entryLen (inclineLen p.rstPeriod p.rstDuty)) = .next (Lfo.resetWith p).ramp := by
  have hn := entryLen_le (inclineLen p.rstPeriod p.rstDuty)
  have hb := tdiv_bounds (fx levMax) (entryLen (inclineLen p.rstPeriod p.rstDuty))
  obtain ⟨hlo, hhi⟩ := abs_le.mp (hb.trans_eq (abs_of_nonneg (fx_bounds levMax).1))
  rw [fx_levMax] at hlo hhi
  have h0 : Ramp.zero.value.toInt = 0 ∧ Ramp.zero.phase.toNat = 0 := ⟨rfl, rfl⟩
  rw [rampTo, h0.1, h0.2, sub_zero, Nat.zero_add, fx_levMax, accReg_next (by omega), andThen_next,
    counterReg_next (by unfold lenMax at hn; unfold counterSize; omega), andThen_next, Lfo.resetWith, fx_levMax]
  rfl

/-- Settles O12: by `rampTo_zero_lfo_reset` and what `ramp_to` does. -/
theorem oscillatorAfterReset : Obligations.OscillatorAfterReset := by
  intro p
  obtain ⟨hval, hph, hsl, hlen⟩ := rampTo_eq_next (rampTo_zero_lfo_reset p)
  have hticks :
      entryTicks (inclineLen p.rstPeriod p.rstDuty).toNat = entryLen (inclineLen p.rstPeriod p.rstDuty) := by
    unfold entryTicks entryLen entryMinLen; omega
  refine ⟨_, rfl, rfl, rfl, rfl, rfl, inclineLen_toNat _ _, declineLen_toNat _ _, rfl, rfl, rfl, ?_, ?_⟩
  · rw [State.resetWith_lfo, hsl, tdiv_eq, fx_levMax]
    exact congrArg _ hticks.symm
  · rw [State.resetWith_lfo, hlen]
    exact (congrArg Nat.cast (Nat.zero_add _)).trans hticks.symm

theorem envInv_resetWith (p : Params) : EnvInv (Env.resetWith p) := ⟨Nat.zero_le _, rfl⟩

theorem lfoInv_resetWith (p : Params) : LfoInv (Lfo.resetWith p) :=
  ⟨Nat.zero_le _, rampTo_runs (rampTo_zero_lfo_reset p) (by decide) (fx_bounds levMax) (one_le_entryLen _)
    (entryLen_le _), rfl, rfl⟩

theorem seqInv_resetWith (p : Params) : SeqInv p (Seq.resetWith p) := by
  refine ⟨Nat.zero_le _, ⟨rfl, rfl, Nat.zero_le _, fun i hi => absurd hi (Nat.not_lt_zero i)⟩,
    fun h => absurd h (Nat.lt_irrefl 0), fun _ => ⟨rfl, rfl⟩, Nat.le_refl _,
    (by decide : InRange Ramp.zero.value.toInt), fun h => ?_, fun h => ?_⟩
  · exact absurd h (Nat.lt_irrefl 0)
  · exact absurd h Bool.noConfusion

theorem inv_resetWith {p : Params} (hp : p.Legal) : Inv (State.resetWith p) :=
  ⟨hp, envInv_resetWith p, lfoInv_resetWith p, seqInv_resetWith p⟩

/-- Settles O14: each unit meets its invariant after reset. -/
theorem resetMeetsTheInvariant : Obligations.ResetMeetsTheInvariant :=
  ⟨fun _ hp => inv_resetWith hp, inv_resetWith (by decide)⟩

end Sys2Proof.Machine
end

section
/-! The envelope: what each of its operations can do, that each keeps `EnvInv` (R29), and which registers it writes
(R22 to R28). -/

namespace Sys2Proof.Machine

/-- All that a setter with a compare can do: nothing when the operand is the old value, else its change (R109). -/
theorem setter_eq_next {α : Type} {c : Prop} [Decidable c] {s t : State} {x : Res α} {done : α → Res State}
    (h : (if c then returnOk s 0 none else andThen x done) = .next t) :
    (c ∧ t = s.answer .ok 0 none) ∨ (¬ c ∧ ∃ a, x = .next a ∧ done a = .next t) := by
  split_ifs at h with hc
  · exact .inl ⟨hc, returnOk_eq_next.mp h⟩
  · exact .inr ⟨hc, andThen_eq_next.mp h⟩

theorem envDone_eq_next {s t : State} {e : Env} : envDone s e = .next t ↔ t = (s.withEnv e).answer .ok 0 none :=
  returnOk_eq_next

/-- What a setter with a compare leaves in `ENV`. -/
theorem envSetter_eq_next {c : Prop} [Decidable c] {s t : State} {x : Res Env}
    (h : (if c then returnOk s 0 none else andThen x (envDone s)) = .next t) : t.env = s.env ∨ x = .next t.env := by
  obtain ⟨-, rfl⟩ | ⟨-, e, he, ht⟩ := setter_eq_next h
  · exact .inl rfl
  · rw [envDone_eq_next.mp ht]
    exact .inr he

theorem atEnd_eq_false_iff {r : Ramp} : r.atEnd = false ↔ r.phase.toNat < r.len.toNat := by
  simp [Ramp.atEnd]

/-- The entry of a ramp state keeps the accumulator and starts a ramp of at least one tick (R103, R121). -/
theorem enterEnv_starts_ramp {p : Params} {e e' : Env} {st : EnvState} (h : enterEnv p e st = .next e')
    (hst : st.isRamp = true) :
    e'.ramp.value = e.ramp.value ∧ e'.ramp.phase.toNat = 0 ∧ (1 ≤ p.minRecompLen → 0 < e'.ramp.len.toNat) := by
  have starts (t : Int) (n : Nat) (hn : 1 ≤ p.minRecompLen → 1 ≤ n) (h : enterRamp e st t n = .next e') :
      e'.ramp.value = e.ramp.value ∧ e'.ramp.phase.toNat = 0 ∧ (1 ≤ p.minRecompLen → 0 < e'.ramp.len.toNat) := by
    obtain ⟨r, hr, rfl⟩ := enterRamp_eq_next h
    obtain ⟨hval, hph, -, hlen⟩ := rampTo_eq_next hr
    refine ⟨hval, congrArg _ hph, fun hm => ?_⟩
    have := hn hm
    simp only [hlen]
    omega
  cases st with
  | idle | sustain => cases hst
  | attack | decay | release => exact starts _ _ (fun _ => one_le_entryLen _) h
  | sustainAdjust => exact starts _ _ id h

/-- All that the end-of-phase transition of a render can do to the registers (R120). -/
theorem envTransition_eq_next {p : Params} {e e' : Env} {ev : Option Event}
    (h : envTransition p e = .next (e', ev)) :
    ((e.state.isRamp && e.ramp.atEnd) = false ∧ e' = e) ∨
    ((e.state.isRamp && e.ramp.atEnd) = true ∧ ∃ st, enterEnv p e st = .next e') := by
  unfold envTransition at h
  by_cases hend : (e.state.isRamp && e.ramp.atEnd) = true
  · rw [if_pos hend] at h
    refine .inr ⟨hend, ?_⟩
    cases hst : e.state <;> simp only [hst, andThen_eq_next, Host.Outcome.next.injEq, Prod.mk.injEq] at h
    case idle | sustain => simp [hst, EnvState.isRamp] at hend
    all_goals
      obtain ⟨e₁, hent, rfl, -⟩ := h
      exact ⟨_, hent⟩
  · rw [if_neg hend] at h
    exact .inl ⟨Bool.eq_false_iff.mpr hend, (congrArg Prod.fst (Host.Outcome.next.inj h)).symm⟩

/-- All that the accumulation of a render can do (R108). -/
theorem envAdvance_eq_next {e e' : Env} (h : envAdvance e = .next e') :
    (e.state.isRamp = true ∧ ∃ r, accumulate e.ramp = .next r ∧ e' = { e with ramp := r }) ∨
    (e.state.isRamp = false ∧ e' = e) := by
  unfold envAdvance at h
  split_ifs at h with hst
  · simp only [andThen_eq_next, Host.Outcome.next.injEq] at h
    obtain ⟨r, hr, rfl⟩ := h
    exact .inl ⟨hst, r, hr, rfl⟩
  · exact .inr ⟨by simpa using hst, (Host.Outcome.next.inj h).symm⟩

/-- All that `ENV.RENDER` can do (R122). -/
theorem execEnvRender_eq_next {s t : State} (h : execEnvRender s = .next t) :
    ∃ e₁ e₂ ev, envTransition s.params s.env = .next (e₁, ev) ∧ envAdvance e₁ = .next e₂ ∧
      t = (s.withEnv { e₂ with out := clampq e₂.ramp.value }).answer .ok (clampq e₂.ramp.value) ev := by
  simp only [execEnvRender, andThen_eq_next, returnOk_eq_next] at h
  obtain ⟨⟨e₁, ev⟩, htr, e₂, hadv, ht⟩ := h
  exact ⟨e₁, e₂, ev, htr, hadv, ht⟩

/-! The invariant. -/

theorem EnvInv.withOut {e : Env} {o : OutWord} (h : EnvInv e) (ho : OutLegal o) : EnvInv { e with out := o } :=
  ⟨ho, h.2⟩

/-- After the transition of a render a ramp state has a tick to go (R108, R120). -/
theorem envTransition_inv {p : Params} {e e' : Env} {ev : Option Event} (hp : p.Legal) (hinv : EnvInv e)
    (h : envTransition p e = .next (e', ev)) :
    EnvInv e' ∧ (e'.state.isRamp = true → e'.ramp.phase.toNat < e'.ramp.len.toNat) := by
  obtain ⟨hend, rfl⟩ | ⟨-, st, hent⟩ := envTransition_eq_next h
  · exact ⟨hinv, fun hst => atEnd_eq_false_iff.mp (by simpa [hst] using hend)⟩
  · refine ⟨enterEnv_inv hp hinv.inRange hinv.1 hent, fun hst => ?_⟩
    obtain ⟨r, rfl⟩ := enterEnv_eq_next hent
    obtain ⟨-, hph, hlen⟩ := enterEnv_starts_ramp hent hst
    rw [hph]
    exact hlen hp.1

theorem envAdvance_inv {e e' : Env} (hinv : EnvInv e)
    (htick : e.state.isRamp = true → e.ramp.phase.toNat < e.ramp.len.toNat) (h : envAdvance e = .next e') :
    EnvInv e' := by
  obtain ⟨hst, r, hr, rfl⟩ | ⟨-, rfl⟩ := envAdvance_eq_next h
  · obtain ⟨t, hrun, hkeep⟩ := EnvInv.runs hinv (fun hi => by simp [hi, EnvState.isRamp] at hst)
      (fun hs => by simp [hs, EnvState.isRamp] at hst)
    exact hkeep r e.out (accumulate_runs hr hrun (htick hst)) hinv.1
  · exact hinv

theorem execEnvRender_inv {s t : State} (hp : s.params.Legal) (hinv : EnvInv s.env) (h : execEnvRender s = .next t) :
    EnvInv t.env := by
  obtain ⟨e₁, e₂, ev, htr, hadv, rfl⟩ := execEnvRender_eq_next h
  obtain ⟨h₁, htick⟩ := envTransition_inv hp hinv htr
  exact (envAdvance_inv h₁ htick hadv).withOut (clampq_le _)

/-- A recomputation over the remaining ticks leaves a ramp that runs to its target (R104, R109). -/
theorem rampTo_remain_runs {p : Params} {r r' : Ramp} {t : Int} {l : Length} (hp : p.Legal)
    (hv : InRange r.value.toInt) (ht : InRange t)
    (h : rampTo r t (remainLen p.minRecompLen r.phase l) = .next r') : r'.RunsTo t :=
  rampTo_runs h hv ht (hp.1.trans (le_remainLen _ _ _)) (remainLen_le _ _ _ hp.2.1)

/-- A live change of a length keeps the invariant when a ramp toward `t` is what state `st` asks for. -/
theorem envRecompute_inv {p : Params} {e e' : Env} {st : EnvState} {t : Int} {l : Length} (hp : p.Legal)
    (hinv : EnvInv e) (ht : InRange t) (hruns : ∀ r : Ramp, e.state = st → r.RunsTo t → EnvInv { e with ramp := r })
    (h : envRecompute p e st t l = .next e') : EnvInv e' := by
  obtain ⟨hst, r, hr, rfl⟩ | ⟨-, rfl⟩ := envRecompute_eq_next h
  · exact hruns r hst (rampTo_remain_runs hp hinv.inRange ht hr)
  · exact hinv

/-- What a setter with a compare leaves in `ENV` meets the invariant if its change does. -/
theorem envSetter_inv {c : Prop} [Decidable c] {s t : State} {x : Res Env} (hinv : EnvInv s.env)
    (hx : ∀ e, x = .next e → EnvInv e)
    (h : (if c then returnOk s 0 none else andThen x (envDone s)) = .next t) : EnvInv t.env := by
  obtain heq | hnext := envSetter_eq_next h
  · rwa [heq]
  · exact hx _ hnext

/-- The new sustain level, whatever the state, with the ramp re-aimed where R125 says so. -/
theorem envSusAct_inv {p : Params} {e e' : Env} {v : Level} (hp : p.Legal) (hinv : EnvInv e)
    (h : envSusAct p { e with susLev := v } = .next e') : EnvInv e' := by
  have hv := hinv.inRange
  have ho := hinv.1
  obtain ⟨st, ramp, _⟩ := e
  cases st with
  | idle | attack | release =>
    obtain rfl := Host.Outcome.next.inj h
    exact hinv
  | decay =>
    obtain ⟨r, hr, rfl⟩ := envRampTo_eq_next h
    have hrun : r.RunsTo (fx v) := rampTo_remain_runs hp hv (fx_bounds v) hr
    exact ⟨ho, hrun⟩
  | sustain =>
    have hent : enterEnv p _ .sustainAdjust = .next e' := h
    exact enterEnv_inv hp (by exact hv) (by exact ho) hent
  | sustainAdjust =>
    obtain ⟨r, hr, rfl⟩ := envRampTo_eq_next h
    have hrun : r.RunsTo (fx v) := rampTo_runs hr hv (fx_bounds v) hp.1 hp.2.1
    exact ⟨ho, hrun⟩

/-- Every operation of the envelope keeps its invariant (R28, R29). -/
theorem exec_keeps_envInv {i : Instr} {s t : State} (hi : i.unit = .env) (hp : s.params.Legal) (hinv : EnvInv s.env)
    (h : exec i s = .next t) : EnvInv t.env := by
  match i, hi with
  | .envRender, _ => exact execEnvRender_inv hp hinv h
  | .envAtk n, _ =>
    refine envSetter_inv hinv (fun e he => envRecompute_inv hp ?_ (fx_bounds _) (fun r hst hr => ?_) he) h
    · exact hinv
    · change s.env.state = .attack at hst
      exact ⟨hinv.1, by simpa only [hst] using hr⟩
  | .envDec n, _ =>
    refine envSetter_inv hinv (fun e he => envRecompute_inv hp ?_ (fx_bounds _) (fun r hst hr => ?_) he) h
    · exact hinv
    · change s.env.state = .decay at hst
      exact ⟨hinv.1, by simpa only [hst] using hr⟩
  | .envRel n, _ =>
    refine envSetter_inv hinv (fun e he => envRecompute_inv hp ?_ (fx_bounds _) (fun r hst hr => ?_) he) h
    · exact hinv
    · change s.env.state = .release at hst
      exact ⟨hinv.1, by simpa only [hst] using hr⟩
  | .envSus v, _ => exact envSetter_inv hinv (fun e he => envSusAct_inv hp hinv he) h
  | .envGate b, _ =>
    obtain ⟨e, he, ht⟩ := andThen_eq_next.mp h
    rw [envDone_eq_next.mp ht]
    exact enterEnv_inv hp hinv.inRange hinv.1 he
  | .envRetrig b, _ => rw [envDone_eq_next.mp h]; exact hinv
  | .envHeod a c, _ => rw [envDone_eq_next.mp h]; exact hinv
  | .envHeor a c, _ => rw [envDone_eq_next.mp h]; exact hinv

/-! The frames. -/

/-- `ENV.RENDER` writes `state`, the ramp and `out` (R122). -/
theorem execEnvRender_frame {s t : State} (h : execEnvRender s = .next t) :
    ∃ st r o, t.env = { s.env with state := st, ramp := r, out := o } := by
  obtain ⟨e₁, e₂, ev, htr, hadv, rfl⟩ := execEnvRender_eq_next h
  have h₁ : ∃ st r, e₁ = { s.env with state := st, ramp := r } := by
    obtain ⟨-, rfl⟩ | ⟨-, st, hent⟩ := envTransition_eq_next htr
    · exact ⟨_, _, rfl⟩
    · exact ⟨st, enterEnv_eq_next hent⟩
  obtain ⟨st, r, rfl⟩ := h₁
  obtain ⟨-, r', -, rfl⟩ | ⟨-, rfl⟩ := envAdvance_eq_next hadv
  · exact ⟨st, r', _, rfl⟩
  · exact ⟨st, r, _, rfl⟩

/-- What a length setter leaves in `ENV`, where `e` is the envelope with the new length: in the matching state `slope`
and `len` of the ramp are new, else the ramp is as it was (R109). -/
theorem envLengthSetter_frame {c : Prop} [Decidable c] {s t : State} {e : Env} {st : EnvState} {tgt : Int} {l : Length}
    (h : (if c then returnOk s 0 none else andThen (envRecompute s.params e st tgt l) (envDone s)) = .next t) :
    t.env = s.env ∨ t.env = e ∨
      (e.state = st ∧ ∃ r, t.env = { e with ramp := r } ∧ r.value = e.ramp.value ∧ r.phase = e.ramp.phase) := by
  obtain heq | hnext := envSetter_eq_next h
  · exact .inl heq
  · obtain ⟨hst, r, hr, he⟩ | ⟨-, he⟩ := envRecompute_eq_next hnext
    · obtain ⟨hval, hph, -, -⟩ := rampTo_eq_next hr
      exact .inr (.inr ⟨hst, r, he, hval, hph⟩)
    · exact .inr (.inl he)

/-- `ENV.GATE` writes `state` and the ramp but for its accumulator (R121, R128). -/
theorem execEnvGate_frame {s t : State} {b : Bool} (h : execEnvGate b s = .next t) :
    ∃ st r, t.env = { s.env with state := st, ramp := r } ∧ r.value = s.env.ramp.value := by
  obtain ⟨e, he, ht⟩ := andThen_eq_next.mp h
  obtain ⟨r, rfl⟩ := enterEnv_eq_next he
  obtain ⟨hval, -, -⟩ := enterEnv_starts_ramp he (by cases b <;> rfl)
  exact ⟨_, r, congrArg State.env (envDone_eq_next.mp ht), hval⟩

/-- A new sustain level writes `slope` and `len` in Decay and SustainAdjust, starts a ramp in Sustain, and does nothing
else otherwise (R125). -/
theorem envSusAct_frame {p : Params} {e e' : Env} (h : envSusAct p e = .next e') :
    e' = e ∨
    ((e.state = .decay ∨ e.state = .sustainAdjust) ∧
      ∃ r, e' = { e with ramp := r } ∧ r.value = e.ramp.value ∧ r.phase = e.ramp.phase) ∨
    (e.state = .sustain ∧ ∃ r, e' = { e with state := .sustainAdjust, ramp := r } ∧ r.value = e.ramp.value) := by
  obtain ⟨st, ramp, _⟩ := e
  cases st with
  | idle | attack | release => exact .inl (Host.Outcome.next.inj h).symm
  | decay | sustainAdjust =>
    obtain ⟨r, hr, rfl⟩ := envRampTo_eq_next h
    obtain ⟨hval, hph, -, -⟩ := rampTo_eq_next hr
    exact .inr (.inl ⟨by simp, r, rfl, hval, hph⟩)
  | sustain =>
    have hent : enterEnv p _ .sustainAdjust = .next e' := h
    obtain ⟨r, rfl⟩ := enterEnv_eq_next hent
    exact .inr (.inr ⟨rfl, r, rfl, (enterEnv_starts_ramp hent rfl).1⟩)

/-- Settles O21: by what each operation of the envelope writes; the operations of the other units leave `ENV` alone. -/
theorem envelopeRegistersWrittenOnlyByTheirOperations :
    Obligations.EnvelopeRegistersWrittenOnlyByTheirOperations := by
  intro i s t h
  by_cases hi : i.unit = .env
  case neg => simp [exec_env_of_other h hi]
  match i, hi with
  | .envRender, _ =>
    obtain ⟨st, r, o, he⟩ := execEnvRender_frame h
    simp [he]
  | .envGate b, _ =>
    obtain ⟨st, r, he, hval⟩ := execEnvGate_frame h
    simp [he, hval]
  | .envAtk n, _ =>
    obtain he | he | ⟨hst, r, he, hval, hph⟩ := envLengthSetter_frame h
    · simp [he]
    · simp [he]
    · change s.env.state = .attack at hst
      simp [he, hval, hph, hst]
  | .envDec n, _ =>
    obtain he | he | ⟨hst, r, he, hval, hph⟩ := envLengthSetter_frame h
    · simp [he]
    · simp [he]
    · change s.env.state = .decay at hst
      simp [he, hval, hph, hst]
  | .envRel n, _ =>
    obtain he | he | ⟨hst, r, he, hval, hph⟩ := envLengthSetter_frame h
    · simp [he]
    · simp [he]
    · change s.env.state = .release at hst
      simp [he, hval, hph, hst]
  | .envSus v, _ =>
    obtain he | hnext := envSetter_eq_next h
    · simp [he]
    · obtain he | ⟨hst, r, he, hval, hph⟩ | ⟨hst, r, he, hval⟩ := envSusAct_frame hnext
      · simp [he]
      · change s.env.state = .decay ∨ s.env.state = .sustainAdjust at hst
        obtain hst | hst := hst <;> simp [he, hval, hph, hst]
      · change s.env.state = .sustain at hst
        simp [he, hval, hst]
  | .envRetrig b, _ => simp [envDone_eq_next.mp h]
  | .envHeod a c, _ => simp [envDone_eq_next.mp h]
  | .envHeor a c, _ => simp [envDone_eq_next.mp h]

end Sys2Proof.Machine
end

section
/-! The oscillator: what each of its operations can do, that each keeps `LfoInv` (R35 to R37), and which registers it
writes (R31 to R36). -/

namespace Sys2Proof.Machine

theorem lfoDone_eq_next {s t : State} {l : Lfo} : lfoDone s l = .next t ↔ t = (s.withLfo l).answer .ok 0 none :=
  returnOk_eq_next

/-- What a setter with a compare leaves in `LFO`. -/
theorem lfoSetter_eq_next {c : Prop} [Decidable c] {s t : State} {x : Res Lfo}
    (h : (if c then returnOk s 0 none else andThen x (lfoDone s)) = .next t) : t.lfo = s.lfo ∨ x = .next t.lfo := by
  obtain ⟨-, rfl⟩ | ⟨-, l, hl, ht⟩ := setter_eq_next h
  · exact .inl rfl
  · rw [lfoDone_eq_next.mp ht]
    exact .inr hl

/-- All that `LFO.RENDER` can do (R151). -/
theorem execLfoRender_eq_next {s t : State} (h : execLfoRender s = .next t) :
    ∃ l r, ((s.lfo.ramp.atEnd = true ∧ lfoFlip s.lfo = .next l) ∨ (s.lfo.ramp.atEnd = false ∧ l = s.lfo)) ∧
      accumulate l.ramp = .next r ∧
      t = (s.withLfo { l with ramp := r, out := clampq r.value }).answer .ok (clampq r.value) none := by
  simp only [execLfoRender, andThen_eq_next, returnOk_eq_next] at h
  obtain ⟨l, hl, r, hr, ht⟩ := h
  refine ⟨l, r, ?_, hr, ht⟩
  split_ifs at hl with hend
  · exact .inl ⟨hend, hl⟩
  · exact .inr ⟨Bool.eq_false_iff.mpr hend, (Host.Outcome.next.inj hl).symm⟩

/-! The invariant. -/

/-- A flip starts a ramp of at least one tick toward the new target (R151). -/
theorem lfoFlip_inv {l l' : Lfo} (hinv : LfoInv l) (h : lfoFlip l = .next l') :
    LfoInv l' ∧ l'.ramp.phase.toNat < l'.ramp.len.toNat := by
  obtain ⟨ho, ⟨-, -, hv, -, -⟩, hinc, hdec⟩ := hinv
  obtain ⟨r, hr, rfl⟩ := lfoFlip_eq_next h
  have hn := one_le_entryLen (lfoCurLen { l with state := l.state.flip })
  refine ⟨⟨ho, rampTo_runs hr hv (lfoTarget_inRange _) hn (entryLen_le _), hinc, hdec⟩, ?_⟩
  obtain ⟨-, hph, -, hlen⟩ := rampTo_eq_next hr
  simp only [hph, hlen]
  omega

theorem execLfoRender_inv {s t : State} (hinv : LfoInv s.lfo) (h : execLfoRender s = .next t) : LfoInv t.lfo := by
  obtain ⟨l, r, hflip, hacc, rfl⟩ := execLfoRender_eq_next h
  have hl : LfoInv l ∧ l.ramp.phase.toNat < l.ramp.len.toNat := by
    obtain ⟨-, hl⟩ | ⟨hend, rfl⟩ := hflip
    · exact lfoFlip_inv hinv hl
    · exact ⟨hinv, atEnd_eq_false_iff.mp hend⟩
  obtain ⟨⟨-, hrun, hinc, hdec⟩, htick⟩ := hl
  exact ⟨clampq_le _, accumulate_runs hacc hrun htick, hinc, hdec⟩

/-- A recomputation makes the derived lengths right and leaves a ramp that runs to its target, whatever `period` and
`duty` were before (R152). -/
theorem lfoRecompute_inv {p : Params} {l l' : Lfo} (hp : p.Legal) (ho : OutLegal l.out)
    (hv : InRange l.ramp.value.toInt) (h : lfoRecompute p l = .next l') : LfoInv l' := by
  obtain ⟨r, n, hr, hlo, hhi, rfl⟩ := lfoRecompute_eq_next h
  exact ⟨ho, rampTo_runs hr hv (lfoTarget_inRange _) (hp.1.trans hlo) (hhi hp.2.1), rfl, rfl⟩

/-- Every operation of the oscillator keeps its invariant (R35, R36, R37). -/
theorem exec_keeps_lfoInv {i : Instr} {s t : State} (hi : i.unit = .lfo) (hp : s.params.Legal) (hinv : LfoInv s.lfo)
    (h : exec i s = .next t) : LfoInv t.lfo := by
  have hv : InRange s.lfo.ramp.value.toInt := hinv.2.1.2.2.1
  match i, hi with
  | .lfoRender, _ => exact execLfoRender_inv hinv h
  | .lfoPeriod n, _ =>
    obtain heq | hnext := lfoSetter_eq_next h
    · rwa [heq]
    · exact lfoRecompute_inv hp (by exact hinv.1) (by exact hv) hnext
  | .lfoDuty d, _ =>
    obtain heq | hnext := lfoSetter_eq_next h
    · rwa [heq]
    · exact lfoRecompute_inv hp (by exact hinv.1) (by exact hv) hnext

/-! The frames. -/

/-- `LFO.RENDER` writes `state`, the ramp and `out` (R151). -/
theorem execLfoRender_frame {s t : State} (h : execLfoRender s = .next t) :
    ∃ st r o, t.lfo = { s.lfo with state := st, ramp := r, out := o } := by
  obtain ⟨l, r, ⟨-, hl⟩ | ⟨-, rfl⟩, -, rfl⟩ := execLfoRender_eq_next h
  · obtain ⟨r', -, rfl⟩ := lfoFlip_eq_next hl
    exact ⟨_, r, _, rfl⟩
  · exact ⟨_, r, _, rfl⟩

/-- A recomputation writes the derived lengths, and `slope` and `len` of the ramp (R152). -/
theorem lfoRecompute_frame {p : Params} {l l' : Lfo} (h : lfoRecompute p l = .next l') :
    ∃ a b r, l' = { l with lenIncline := a, lenDecline := b, ramp := r } ∧ r.value = l.ramp.value ∧
      r.phase = l.ramp.phase := by
  obtain ⟨r, n, hr, -, -, rfl⟩ := lfoRecompute_eq_next h
  obtain ⟨hval, hph, -, -⟩ := rampTo_eq_next hr
  exact ⟨_, _, r, rfl, hval, hph⟩

/-- Settles O22: by what each operation of the oscillator writes; the operations of the other units leave `LFO`
alone. -/
theorem oscillatorRegistersWrittenOnlyByTheirOperations :
    Obligations.OscillatorRegistersWrittenOnlyByTheirOperations := by
  intro i s t h
  by_cases hi : i.unit = .lfo
  case neg => simp [exec_lfo_of_other h hi]
  match i, hi with
  | .lfoRender, _ =>
    obtain ⟨st, r, o, hl⟩ := execLfoRender_frame h
    simp [hl]
  | .lfoPeriod n, _ =>
    obtain hl | hnext := lfoSetter_eq_next h
    · simp [hl]
    · obtain ⟨a, b, r, hl, hval, hph⟩ := lfoRecompute_frame hnext
      simp [hl, hval, hph]
  | .lfoDuty d, _ =>
    obtain hl | hnext := lfoSetter_eq_next h
    · simp [hl]
    · obtain ⟨a, b, r, hl, hval, hph⟩ := lfoRecompute_frame hnext
      simp [hl, hval, hph]

end Sys2Proof.Machine
end

section
/-! The sequencer: what each of its operations can do, that each keeps `SeqInv` (R48 to R50), and which registers it
writes (R40 to R49). -/

namespace Sys2Proof.Machine

theorem seqDone_eq_next {s t : State} {q : Seq} : seqDone s q = .next t ↔ t = (s.withSeq q).answer .ok 0 none :=
  returnOk_eq_next

/-- All that `SEQ.RENDER` can do (R172). -/
theorem execSeqRender_eq_next {s t : State} (h : execSeqRender s = .next t) :
    (s.seq.runs = false ∧ t = s.answer .ok s.seq.out none) ∨
    (s.seq.runs = true ∧ ∃ q₁ ev q₂,
      (((s.seq.rstPending || s.seq.ramp.atEnd) = true ∧ seqAdvance s.params s.seq = .next (q₁, ev)) ∨
        ((s.seq.rstPending || s.seq.ramp.atEnd) = false ∧ q₁ = s.seq ∧ ev = none)) ∧
      seqTick q₁ = .next q₂ ∧ t = (s.withSeq q₂).answer .ok q₂.out ev) := by
  unfold execSeqRender at h
  by_cases hrun : s.seq.runs = true
  · rw [if_pos hrun] at h
    simp only [andThen_eq_next, returnOk_eq_next] at h
    obtain ⟨⟨q₁, ev⟩, hadv, q₂, htick, ht⟩ := h
    refine .inr ⟨hrun, q₁, ev, q₂, ?_, htick, ht⟩
    split_ifs at hadv with hend
    · exact .inl ⟨hend, hadv⟩
    · obtain ⟨rfl, rfl⟩ := Prod.mk.inj (Host.Outcome.next.inj hadv)
      exact .inr ⟨Bool.eq_false_iff.mpr hend, rfl, rfl⟩
  · rw [if_neg hrun] at h
    exact .inl ⟨Bool.eq_false_iff.mpr hrun, returnOk_eq_next.mp h⟩

/-- All that `SEQ.SETSTEP` can do (R177). -/
theorem execSeqSetstep_eq_next {s t : State} {i : Nat} {v : Int} (h : execSeqSetstep i v s = .next t) :
    (s.seq.hasStep i = false ∧ t = s.answer .ok 0 none) ∨
    (s.seq.hasStep i = true ∧ ∃ x q, Memory.read s.seq.steps i = some x ∧
      seqSetVal s.params s.seq i x (levelOperand v) = .next q ∧ t = (s.withSeq q).answer .ok 0 none) := by
  unfold execSeqSetstep at h
  split_ifs at h with hi
  · simp only [andThen_eq_next, Memory.load_eq_next, seqDone_eq_next] at h
    obtain ⟨x, ⟨-, hx⟩, q, hq, ht⟩ := h
    exact .inr ⟨hi, x, q, hx, hq, ht⟩
  · exact .inl ⟨Bool.eq_false_iff.mpr hi, returnOk_eq_next.mp h⟩

/-- All that `SEQ.SETSTEPL` can do (R178). -/
theorem execSeqSetstepl_eq_next {s t : State} {i : Nat} {v n : Int} (h : execSeqSetstepl i v n s = .next t) :
    (s.seq.hasStep i = false ∧ t = s.answer .ok 0 none) ∨
    (s.seq.hasStep i = true ∧ ∃ x q₁ q₂, Memory.read s.seq.steps i = some x ∧
      seqSetVal s.params s.seq i x (levelOperand v) = .next q₁ ∧
      seqSetLen s.params q₁ i { x with val := levelOperand v } (lenOperand n) = .next q₂ ∧
      t = (s.withSeq q₂).answer .ok 0 none) := by
  unfold execSeqSetstepl at h
  split_ifs at h with hi
  · simp only [andThen_eq_next, Memory.load_eq_next, seqDone_eq_next] at h
    obtain ⟨x, ⟨-, hx⟩, q₁, hq₁, q₂, hq₂, ht⟩ := h
    exact .inr ⟨hi, x, q₁, q₂, hx, hq₁, hq₂, ht⟩
  · exact .inl ⟨Bool.eq_false_iff.mpr hi, returnOk_eq_next.mp h⟩

theorem Seq.isActive_iff {q : Seq} {i : Nat} : q.isActive i = true ↔ i = q.stepIdx.toNat ∧ q.rstPending = false := by
  simp [Seq.isActive]

/-! The invariant. -/

/-- Writing an entry inside the capacity keeps the store's invariant (R50, R60). -/
theorem storeInv_write {p : Params} {q : Seq} {i : Nat} (y : Step) (h : StoreInv p q) (hi : i < p.seqCap) :
    StoreInv p { q with steps := Memory.write q.steps i y } := by
  obtain ⟨hwf, hin, hcap, hwritten⟩ := h
  refine ⟨Memory.wf_write i y hwf, Memory.within_write hin hi, hcap, fun j hj => ?_⟩
  rw [Memory.read_write]
  split_ifs
  · rfl
  · exact hwritten j hj

/-- Writing an entry keeps the latched target if the entry, when it is the active one, has that value (R48). -/
theorem targetLatched_write {q : Seq} {i : Nat} {y : Step} (h : q.TargetLatched)
    (hy : q.isActive i = true → 0 < q.nSteps.toNat → y.val = q.tgt) :
    Seq.TargetLatched { q with steps := Memory.write q.steps i y } := by
  intro hpend hn
  simp only [Memory.read_write]
  split_ifs with hi
  · exact congrArg some (hy (Seq.isActive_iff.mpr ⟨hi.symm, hpend⟩) hn)
  · exact h hpend hn

/-- A rewrite of a step's value keeps the invariant: if the step is active, `tgt` follows and the glide is set up anew
(R177). -/
theorem seqSetVal_inv {p : Params} {q q' : Seq} {i : Nat} {x : Step} {v : Level} (hinv : SeqInv p q)
    (hx : Memory.read q.steps i = some x) (h : seqSetVal p q i x v = .next q') :
    SeqInv p q' ∧ Memory.read q'.steps i = some { x with val := v } := by
  obtain ⟨rfl, rfl⟩ | ⟨-, hi, hact⟩ := seqSetVal_eq_next h
  · exact ⟨hinv, hx⟩
  obtain ⟨ho, hstore, hidx, hempty, hph, hv, hgl, htgt⟩ := hinv
  have hread : Memory.read (Memory.write q.steps i { x with val := v }) i = some { x with val := v } := by
    rw [Memory.read_write, if_pos rfl]
  obtain ⟨hact, rfl⟩ | ⟨hact, hglide⟩ := hact
  · have hlatch := targetLatched_write (i := i) (y := { x with val := v }) htgt (by simp [hact])
    exact ⟨⟨ho, storeInv_write _ hstore hi, hidx, hempty, hph, hv, hgl, hlatch⟩, hread⟩
  · have hruns := glide_runs hglide hv
    obtain ⟨slope, glEnd, rfl, -, -⟩ := glide_eq_next hglide
    refine ⟨⟨ho, storeInv_write _ hstore hi, hidx, hempty, hph, hv, hruns, fun _ _ => ?_⟩, hread⟩
    obtain ⟨rfl, -⟩ := Seq.isActive_iff.mp hact
    exact congrArg (Option.map Step.val) hread

/-- A rewrite of a step's length keeps the invariant: the end of the running step is not before `phase` (R178). -/
theorem seqSetLen_inv {p : Params} {q q' : Seq} {i : Nat} {x : Step} {l : Length} (hinv : SeqInv p q)
    (hx : Memory.read q.steps i = some x) (h : seqSetLen p q i x l = .next q') : SeqInv p q' := by
  obtain ⟨-, rfl⟩ | ⟨-, hi, hlen⟩ := seqSetLen_eq_next h
  · exact hinv
  obtain ⟨ho, hstore, hidx, hempty, hph, hv, hgl, htgt⟩ := hinv
  have hlatch : Seq.TargetLatched { q with steps := Memory.write q.steps i { x with len := l } } := by
    refine targetLatched_write htgt fun hact hn => ?_
    obtain ⟨rfl, hpend⟩ := Seq.isActive_iff.mp hact
    have := htgt hpend hn
    rw [hx] at this
    exact Option.some.inj this
  obtain ⟨-, rfl⟩ | ⟨-, len, hlen, rfl⟩ := hlen
  · exact ⟨ho, storeInv_write _ hstore hi, hidx, hempty, hph, hv, hgl, hlatch⟩
  · have hph' : q.ramp.phase.toNat ≤ len.toNat := by omega
    exact ⟨ho, storeInv_write _ hstore hi, hidx, hempty, hph', hv, hgl, hlatch⟩

/-- An append keeps the invariant: the new entry is written before it is counted, and it is not the active one
(R66, R175). -/
theorem seqAppendStep_inv {s t : State} {x : Step} (hp : s.params.Legal) (hinv : SeqInv s.params s.seq)
    (h : seqAppendStep s x = .next t) : SeqInv s.params t.seq := by
  obtain ⟨-, rfl⟩ | ⟨hlt, rfl⟩ := seqAppendStep_eq_next h
  · exact hinv
  obtain ⟨ho, hstore, hidx, hempty, hph, hv, hgl, htgt⟩ := hinv
  obtain ⟨hwf, hin, hcap, hwritten⟩ := storeInv_write x hstore hlt
  obtain ⟨-, -, -, hcap256⟩ := hp
  have hcount : (s.seq.nSteps + 1).toNat = s.seq.nSteps.toNat + 1 := by
    rw [BitVec.toNat_add]
    exact Nat.mod_eq_of_lt (by simp; omega)
  simp only [State.answer_seq, State.withSeq_seq]
  refine ⟨ho, ⟨hwf, hin, by simp only [hcount]; omega, fun j hj => ?_⟩, fun _ => ?_, fun h0 => ?_, hph, hv, hgl,
    fun hpend _ => ?_⟩
  · rw [Memory.read_write]
    split_ifs with hj'
    · rfl
    · exact hstore.2.2.2 j (by simp only [hcount] at hj; omega)
  · simp only [hcount]
    by_cases h0 : s.seq.nSteps.toNat = 0
    · have := (hempty h0).1
      omega
    · have := hidx (by omega)
      omega
  · simp only [hcount] at h0
    omega
  · have hn : 0 < s.seq.nSteps.toNat := by
      by_contra h0
      have hpend' := (hempty (by omega)).2
      exact absurd (hpend'.symm.trans hpend) (by decide)
    have hne : s.seq.stepIdx.toNat ≠ s.seq.nSteps.toNat := (hidx hn).ne
    simp only [Memory.read_write, if_neg hne]
    exact htgt hpend hn

/-- An advance enters a step of the sequence with at least one tick to go and its glide set up (R170, R171). -/
theorem seqAdvance_inv {p : Params} {q q' : Seq} {ev : Option Event} (hp : p.Legal) (hinv : SeqInv p q)
    (hn : 0 < q.nSteps.toNat) (h : seqAdvance p q = .next (q', ev)) :
    SeqInv p q' ∧ q'.ramp.phase.toNat < q'.ramp.len.toNat := by
  obtain ⟨x, slope, glEnd, hx, hcap, hslope, hend, rfl, -⟩ := seqAdvance_eq_next h
  obtain ⟨ho, hstore, -, -, -, hv, -, -⟩ := hinv
  obtain ⟨-, -, -, hcap256⟩ := hp
  have hidx : (BitVec.ofNat 8 (seqNextIdx q)).toNat = seqNextIdx q :=
    (BitVec.toNat_ofNat _ _).trans (Nat.mod_eq_of_lt (by omega))
  have hlen : 0 < (BitVec.ofNat 32 (entryLen (if q.uniformStep then q.steplen else x.len)) : Counter).toNat := by
    have hle := entryLen_le (if q.uniformStep then q.steplen else x.len)
    rw [ofNat_toNat_counter (by unfold lenMax at hle; unfold counterSize; omega)]
    exact one_le_entryLen _
  have hglide := rampTo_end hv (fx_bounds x.val) (one_le_entryLen q.glidelen) (entryLen_le _)
  refine ⟨⟨ho, hstore, fun _ => ?_, fun h0 => absurd h0 hn.ne', Nat.zero_le _, hv, fun _ => ?_, fun _ _ => ?_⟩, hlen⟩
  · rw [hidx]
    exact seqNextIdx_lt hn
  · simpa [Ramp.after, hend, hslope] using hglide
  · rw [hidx]
    exact congrArg (Option.map Step.val) hx

/-- A tick before the end of its step keeps the invariant, within the glide and after it (R110, R172). -/
theorem seqTick_inv {p : Params} {q q' : Seq} (hinv : SeqInv p q) (hlt : q.ramp.phase.toNat < q.ramp.len.toNat)
    (h : seqTick q = .next q') : SeqInv p q' := by
  obtain ⟨ho, hstore, hidx, hempty, -, hv, hgl, htgt⟩ := hinv
  obtain ⟨value, phase, rfl, hphase, hvalue⟩ := seqTick_eq_next h
  refine ⟨clampq_le _, hstore, hidx, hempty, ?_, ?_, fun hin => ?_, htgt⟩
  · simp only [hphase]
    omega
  · simp only [hvalue]
    split_ifs with hin
    · exact inRange_next_tick hv (k := (q.glEnd.toNat : Int) - q.ramp.phase.toNat) (by omega) (hgl hin).1
    · exact fx_bounds _
  · simp only [hphase] at hin
    have hin' : q.ramp.phase.toNat < q.glEnd.toNat := by omega
    have hafter : ({ q.ramp with value := value, phase := phase } : Ramp).after ((q.glEnd.toNat : Int) - phase.toNat) =
        q.ramp.after ((q.glEnd.toNat : Int) - q.ramp.phase.toNat) := by
      simp only [Ramp.after, hvalue, if_pos hin', hphase]
      push_cast
      ring
    simp only [hafter]
    exact hgl hin'

theorem execSeqRender_inv {s t : State} (hp : s.params.Legal) (hinv : SeqInv s.params s.seq)
    (h : execSeqRender s = .next t) : SeqInv s.params t.seq := by
  obtain ⟨-, rfl⟩ | ⟨hrun, q₁, ev, q₂, hadv, htick, rfl⟩ := execSeqRender_eq_next h
  · exact hinv
  have hn : 0 < s.seq.nSteps.toNat := by
    simp only [Seq.runs, Bool.and_eq_true, decide_eq_true_eq] at hrun
    exact hrun.2
  have h₁ : SeqInv s.params q₁ ∧ q₁.ramp.phase.toNat < q₁.ramp.len.toNat := by
    obtain ⟨-, hadv⟩ | ⟨hend, rfl, -⟩ := hadv
    · exact seqAdvance_inv hp hinv hn hadv
    · exact ⟨hinv, atEnd_eq_false_iff.mp (Bool.or_eq_false_iff.mp hend).2⟩
  exact seqTick_inv h₁.1 h₁.2 htick

/-- Every operation of the sequencer keeps its invariant (R41, R48, R49, R50). -/
theorem exec_keeps_seqInv {i : Instr} {s t : State} (hi : i.unit = .seq) (hp : s.params.Legal)
    (hinv : SeqInv s.params s.seq) (h : exec i s = .next t) : SeqInv s.params t.seq := by
  match i, hi with
  | .seqRender, _ => exact execSeqRender_inv hp hinv h
  | .seqAppend v, _ => exact seqAppendStep_inv hp hinv h
  | .seqAppendl v n, _ => exact seqAppendStep_inv hp hinv h
  | .seqSetstep k v, _ =>
    obtain ⟨-, rfl⟩ | ⟨-, x, q, hx, hval, rfl⟩ := execSeqSetstep_eq_next h
    · exact hinv
    · exact (seqSetVal_inv hinv hx hval).1
  | .seqSetstepl k v n, _ =>
    obtain ⟨-, rfl⟩ | ⟨-, x, q₁, q₂, hx, hval, hlen, rfl⟩ := execSeqSetstepl_eq_next h
    · exact hinv
    · obtain ⟨hinv₁, hx₁⟩ := seqSetVal_inv hinv hx hval
      exact seqSetLen_inv hinv₁ hx₁ hlen
  | .seqClear, _ =>
    rw [seqDone_eq_next.mp h]
    obtain ⟨ho, ⟨hwf, hin, -, -⟩, -, -, hph, hv, hgl, -⟩ := hinv
    exact ⟨ho, ⟨hwf, hin, Nat.zero_le _, fun j hj => absurd hj (Nat.not_lt_zero j)⟩,
      fun h0 => absurd h0 (Nat.lt_irrefl 0), fun _ => ⟨rfl, rfl⟩, hph, hv, hgl, fun hpend => Bool.noConfusion hpend⟩
  | .seqReset, _ =>
    rw [seqDone_eq_next.mp h]
    obtain ⟨ho, hstore, hidx, hempty, hph, hv, hgl, -⟩ := hinv
    exact ⟨ho, hstore, hidx, fun h0 => ⟨(hempty h0).1, rfl⟩, hph, hv, hgl, fun hpend => Bool.noConfusion hpend⟩
  | .seqNsteps, _ => rw [returnOk_eq_next.mp h]; exact hinv
  | .seqSteplen n, _ => rw [seqDone_eq_next.mp h]; exact hinv
  | .seqGlide n, _ => rw [seqDone_eq_next.mp h]; exact hinv
  | .seqGate b, _ => rw [seqDone_eq_next.mp h]; exact hinv
  | .seqHeos a c, _ => rw [seqDone_eq_next.mp h]; exact hinv
  | .seqUniform b, _ => rw [seqDone_eq_next.mp h]; exact hinv

/-! The frames. -/

/-- `SEQ.RENDER` changes nothing unless the sequencer runs, and then neither the store nor a configuration register
(R172). -/
theorem execSeqRender_frame {s t : State} (h : execSeqRender s = .next t) :
    t.seq = s.seq ∨
    (s.seq.runs = true ∧ ∃ idx pend tgt ramp glEnd o, t.seq = { s.seq with
      stepIdx := idx
      rstPending := pend
      tgt := tgt
      ramp := ramp
      glEnd := glEnd
      out := o }) := by
  obtain ⟨-, rfl⟩ | ⟨hrun, q₁, ev, q₂, hadv, htick, rfl⟩ := execSeqRender_eq_next h
  · exact .inl rfl
  refine .inr ⟨hrun, ?_⟩
  obtain ⟨value, phase, rfl, -, -⟩ := seqTick_eq_next htick
  obtain ⟨-, hadv⟩ | ⟨-, rfl, -⟩ := hadv
  · obtain ⟨x, slope, glEnd, -, -, -, -, rfl, -⟩ := seqAdvance_eq_next hadv
    exact ⟨_, _, _, _, _, _, rfl⟩
  · exact ⟨_, _, _, _, _, _, rfl⟩

/-- The value part of a rewrite writes the store, `tgt`, `slope` and `gl_end` (R177). -/
theorem seqSetVal_frame {p : Params} {q q' : Seq} {i : Nat} {x : Step} {v : Level}
    (h : seqSetVal p q i x v = .next q') :
    ∃ m tgt slope glEnd,
      q' = { q with steps := m, tgt := tgt, ramp := { q.ramp with slope := slope }, glEnd := glEnd } := by
  obtain ⟨-, rfl⟩ | ⟨-, -, ⟨-, rfl⟩ | ⟨-, hglide⟩⟩ := seqSetVal_eq_next h
  · exact ⟨_, _, _, _, rfl⟩
  · exact ⟨_, _, _, _, rfl⟩
  · obtain ⟨slope, glEnd, rfl, -, -⟩ := glide_eq_next hglide
    exact ⟨_, _, _, _, rfl⟩

/-- The length part of a rewrite writes the store and `len` (R178). -/
theorem seqSetLen_frame {p : Params} {q q' : Seq} {i : Nat} {x : Step} {l : Length}
    (h : seqSetLen p q i x l = .next q') :
    ∃ m len, q' = { q with steps := m, ramp := { q.ramp with len := len } } := by
  obtain ⟨-, rfl⟩ | ⟨-, -, ⟨-, rfl⟩ | ⟨-, len, -, rfl⟩⟩ := seqSetLen_eq_next h
  · exact ⟨_, _, rfl⟩
  · exact ⟨_, _, rfl⟩
  · exact ⟨_, _, rfl⟩

/-- An append writes the store and `n_steps` (R66). -/
theorem seqAppendStep_frame {s t : State} {x : Step} (h : seqAppendStep s x = .next t) :
    ∃ m n, t.seq = { s.seq with steps := m, nSteps := n } := by
  obtain ⟨-, rfl⟩ | ⟨-, rfl⟩ := seqAppendStep_eq_next h
  · exact ⟨_, _, rfl⟩
  · exact ⟨_, _, rfl⟩

/-- Settles O23: by what each operation of the sequencer writes; the operations of the other units leave `SEQ` alone. -/
theorem sequencerRegistersWrittenOnlyByTheirOperations :
    Obligations.SequencerRegistersWrittenOnlyByTheirOperations := by
  intro i s t h
  by_cases hi : i.unit = .seq
  case neg => simp [exec_seq_of_other h hi]
  match i, hi with
  | .seqRender, _ =>
    obtain hq | ⟨hrun, idx, pend, tgt, ramp, glEnd, o, hq⟩ := execSeqRender_frame h
    · simp [hq]
    · simp only [Seq.runs, Bool.and_eq_true, decide_eq_true_eq] at hrun
      simp [hq, hrun]
  | .seqAppend v, _ =>
    obtain ⟨m, n, hq⟩ := seqAppendStep_frame h
    simp [hq]
  | .seqAppendl v k, _ =>
    obtain ⟨m, n, hq⟩ := seqAppendStep_frame h
    simp [hq]
  | .seqSetstep k v, _ =>
    obtain ⟨-, rfl⟩ | ⟨-, x, q, -, hval, rfl⟩ := execSeqSetstep_eq_next h
    · simp
    · obtain ⟨m, tgt, slope, glEnd, rfl⟩ := seqSetVal_frame hval
      simp
  | .seqSetstepl k v n, _ =>
    obtain ⟨-, rfl⟩ | ⟨-, x, q₁, q₂, -, hval, hlen, rfl⟩ := execSeqSetstepl_eq_next h
    · simp
    · obtain ⟨m, tgt, slope, glEnd, rfl⟩ := seqSetVal_frame hval
      obtain ⟨m', len, rfl⟩ := seqSetLen_frame hlen
      simp
  | .seqNsteps, _ => simp [returnOk_eq_next.mp h]
  | .seqClear, _ => simp [seqDone_eq_next.mp h]
  | .seqReset, _ => simp [seqDone_eq_next.mp h]
  | .seqSteplen n, _ => simp [seqDone_eq_next.mp h]
  | .seqGlide n, _ => simp [seqDone_eq_next.mp h]
  | .seqGate b, _ => simp [seqDone_eq_next.mp h]
  | .seqHeos a c, _ => simp [seqDone_eq_next.mp h]
  | .seqUniform b, _ => simp [seqDone_eq_next.mp h]

end Sys2Proof.Machine
end

section
/-! The invariant of the whole machine: the three units together, over every input. -/

namespace Sys2Proof.Machine

/-- An operation keeps its own unit's invariant, and the other units by the frame. -/
theorem exec_keeps_inv {i : Instr} {s t : State} (hinv : Inv s) (h : exec i s = .next t) : Inv t := by
  obtain ⟨hp, henv, hlfo, hseq⟩ := hinv
  have hpar := exec_params h
  cases hi : i.unit with
  | env =>
    rw [Inv, hpar, exec_lfo_of_other h (by simp [hi]), exec_seq_of_other h (by simp [hi])]
    exact ⟨hp, exec_keeps_envInv hi hp henv h, hlfo, hseq⟩
  | lfo =>
    rw [Inv, hpar, exec_env_of_other h (by simp [hi]), exec_seq_of_other h (by simp [hi])]
    exact ⟨hp, henv, exec_keeps_lfoInv hi hp hlfo h, hseq⟩
  | seq =>
    rw [Inv, hpar, exec_env_of_other h (by simp [hi]), exec_lfo_of_other h (by simp [hi])]
    exact ⟨hp, henv, hlfo, exec_keeps_seqInv hi hp hseq h⟩

/-- Settles O15: `rst` gives the reset state, which meets the invariant, an operation keeps it, and every other step
changes no register. -/
theorem everyStepKeepsTheInvariant : Obligations.EveryStepKeepsTheInvariant := by
  intro s t hinv h
  obtain ⟨-, rfl⟩ | ⟨rest, -, rfl⟩ | ⟨w, rest, -, rfl | ⟨i, -, hex⟩⟩ := step_eq_next h
  · exact hinv
  · exact inv_resetWith hinv.1
  · exact hinv
  · exact exec_keeps_inv (s := { s with inputs := rest }) hinv hex

end Sys2Proof.Machine
end

section
/-! The step store: which operation writes which entry, what the appends write, and that a rewrite outside the sequence
does nothing (R62 to R68). -/

namespace Sys2Proof.Machine

open Claims

theorem Memory.read_write_of_ne {m : Memory} {i a : Nat} {x : Step} (ha : a ≠ i) :
    Memory.read (Memory.write m i x) a = Memory.read m a := by
  rw [Memory.read_write, if_neg ha]

theorem seqDone_seq {s t : State} {q : Seq} (h : seqDone s q = .next t) : t.seq = q := by
  rw [seqDone_eq_next.mp h, State.answer_seq, State.withSeq_seq]

/-- The value part of a rewrite leaves every other entry as it is (R177). -/
theorem seqSetVal_read_of_ne {p : Params} {q q' : Seq} {i a : Nat} {x : Step} {v : Level}
    (h : seqSetVal p q i x v = .next q') (ha : a ≠ i) : Memory.read q'.steps a = Memory.read q.steps a := by
  obtain ⟨-, rfl⟩ | ⟨-, -, ⟨-, rfl⟩ | ⟨-, hglide⟩⟩ := seqSetVal_eq_next h
  · rfl
  · exact Memory.read_write_of_ne ha
  · obtain ⟨slope, glEnd, rfl, -, -⟩ := glide_eq_next hglide
    exact Memory.read_write_of_ne ha

/-- The length part of a rewrite leaves every other entry as it is (R178). -/
theorem seqSetLen_read_of_ne {p : Params} {q q' : Seq} {i a : Nat} {x : Step} {l : Length}
    (h : seqSetLen p q i x l = .next q') (ha : a ≠ i) : Memory.read q'.steps a = Memory.read q.steps a := by
  obtain ⟨-, rfl⟩ | ⟨-, -, ⟨-, rfl⟩ | ⟨-, len, -, rfl⟩⟩ := seqSetLen_eq_next h
  · rfl
  · exact Memory.read_write_of_ne ha
  · exact Memory.read_write_of_ne ha

theorem Seq.hasStep_iff {q : Seq} {i : Nat} : q.hasStep i = true ↔ i < q.nSteps.toNat := by
  simp [Seq.hasStep]

/-- An entry that an append changes is entry `n_steps`, inside the capacity (R66). -/
theorem seqAppendStep_writes {s t : State} {x : Step} {a : Nat} (h : seqAppendStep s x = .next t)
    (hne : Memory.read t.seq.steps a ≠ Memory.read s.seq.steps a) :
    a = s.seq.nSteps.toNat ∧ a < s.params.seqCap := by
  obtain ⟨-, rfl⟩ | ⟨hlt, rfl⟩ := seqAppendStep_eq_next h
  · exact absurd rfl hne
  · have ha : a = s.seq.nSteps.toNat := by
      by_contra ha
      exact hne (Memory.read_write_of_ne ha)
    exact ⟨ha, ha ▸ hlt⟩

/-- An entry that `SEQ.SETSTEP` changes is the addressed one, inside the sequence (R65, R177). -/
theorem execSeqSetstep_writes {s t : State} {i a : Nat} {v : Int} (h : execSeqSetstep i v s = .next t)
    (hne : Memory.read t.seq.steps a ≠ Memory.read s.seq.steps a) : a = i ∧ i < s.seq.nSteps.toNat := by
  obtain ⟨-, rfl⟩ | ⟨hi, x, q, -, hval, rfl⟩ := execSeqSetstep_eq_next h
  · exact absurd rfl hne
  · refine ⟨?_, Seq.hasStep_iff.mp hi⟩
    by_contra ha
    exact hne (seqSetVal_read_of_ne hval ha)

/-- An entry that `SEQ.SETSTEPL` changes is the addressed one, inside the sequence (R65, R178). -/
theorem execSeqSetstepl_writes {s t : State} {i a : Nat} {v n : Int} (h : execSeqSetstepl i v n s = .next t)
    (hne : Memory.read t.seq.steps a ≠ Memory.read s.seq.steps a) : a = i ∧ i < s.seq.nSteps.toNat := by
  obtain ⟨-, rfl⟩ | ⟨hi, x, q₁, q₂, -, hval, hlen, rfl⟩ := execSeqSetstepl_eq_next h
  · exact absurd rfl hne
  · refine ⟨?_, Seq.hasStep_iff.mp hi⟩
    by_contra ha
    exact hne ((seqSetLen_read_of_ne hlen ha).trans (seqSetVal_read_of_ne hval ha))

/-- `SEQ.RENDER` reads the store and does not write it (R172). -/
theorem execSeqRender_steps {s t : State} (h : execSeqRender s = .next t) : t.seq.steps = s.seq.steps := by
  obtain hq | ⟨-, idx, pend, tgt, ramp, glEnd, o, hq⟩ := execSeqRender_frame h
  all_goals rw [hq]

/-- Settles O24: by what the two appends and the two rewrites write; every other operation keeps the whole store. -/
theorem storeIsWrittenOnlyAtTheAddressedEntry : Obligations.StoreIsWrittenOnlyAtTheAddressedEntry := by
  intro i s t h a hne
  have kept : t.seq.steps ≠ s.seq.steps := fun hs => hne (by rw [hs])
  by_cases hi : i.unit = .seq
  case neg => exact absurd (congrArg Seq.steps (exec_seq_of_other h hi)) kept
  match i, hi with
  | .seqAppend v, _ => exact seqAppendStep_writes h hne
  | .seqAppendl v n, _ => exact seqAppendStep_writes h hne
  | .seqSetstep k v, _ => exact execSeqSetstep_writes h hne
  | .seqSetstepl k v n, _ => exact execSeqSetstepl_writes h hne
  | .seqRender, _ => exact kept (execSeqRender_steps h)
  | .seqNsteps, _ => exact kept (by rw [returnOk_eq_next.mp h, State.answer_seq])
  | .seqClear, _ => exact kept (by rw [seqDone_seq h])
  | .seqReset, _ => exact kept (by rw [seqDone_seq h])
  | .seqSteplen n, _ => exact kept (by rw [seqDone_seq h])
  | .seqGlide n, _ => exact kept (by rw [seqDone_seq h])
  | .seqGate b, _ => exact kept (by rw [seqDone_seq h])
  | .seqHeos c d, _ => exact kept (by rw [seqDone_seq h])
  | .seqUniform b, _ => exact kept (by rw [seqDone_seq h])

/-! The appends. -/

theorem seqAppendStep_of_full {s : State} (x : Step) (h : s.params.seqCap ≤ s.seq.nSteps.toNat) :
    seqAppendStep s x = .next (s.answer .full 0 none) := by
  have hfull : s.seq.isFull s.params = true := decide_eq_true h
  rw [seqAppendStep, if_pos hfull, raiseStatus]

theorem seqAppendStep_of_room {s : State} (x : Step) (h : s.seq.nSteps.toNat < s.params.seqCap) :
    seqAppendStep s x = .next ((s.withSeq { s.seq with
      steps := Memory.write s.seq.steps s.seq.nSteps.toNat x
      nSteps := s.seq.nSteps + 1 }).answer .ok 0 none) := by
  have hroom : ¬ s.seq.isFull s.params = true := by simpa [Seq.isFull] using h
  rw [seqAppendStep, if_neg hroom, Memory.store_eq_next.mpr ⟨h, rfl⟩, andThen_next]
  exact seqDone_eq_next.mpr rfl

/-- Counting a step below a legal capacity does not wrap `n_steps` (R13, R40). -/
theorem nSteps_succ_toNat {p : Params} {c : BitVec 9} (hp : p.Legal) (hc : c.toNat < p.seqCap) :
    (c + 1).toNat = c.toNat + 1 := by
  obtain ⟨-, -, -, hcap⟩ := hp
  have hfit : c.toNat + 1 < 2 ^ 9 := by omega
  rw [BitVec.toNat_add]
  exact Nat.mod_eq_of_lt hfit

/-- An operation that appends the step `x` does what R66 says, with the level and the length of `x`. -/
theorem appendsStep_of_seqAppendStep {op : Instr} {s : State} {x : Step} (hop : exec op s = seqAppendStep s x) :
    AppendsStep op s x.val.toNat x.len.toNat := by
  refine ⟨fun hfull => ?_, fun hinv hroom => ?_⟩
  · rw [hop, seqAppendStep_of_full x hfull]
    rfl
  · refine ⟨_, _, x, ?_, nSteps_succ_toNat hinv.1 hroom, rfl, rfl, fun a => Memory.read_write _ _ a x⟩
    rw [hop, seqAppendStep_of_room x hroom]
    rfl

theorem levelOf_eq (v : Int) : levelOf v = (levelOperand v).toNat := (levelOperand_toNat v).symm

theorem lenOf_eq (n : Int) : lenOf n = (lenOperand n).toNat := (lenOperand_toNat n).symm

/-- Settles O51: both appends are one append of a step, of the clamped level with `steplen` or the clamped length. -/
theorem appendsWriteTheNextEntryOrAnswerFull : Obligations.AppendsWriteTheNextEntryOrAnswerFull := by
  intro s v n
  rw [levelOf_eq, lenOf_eq]
  exact ⟨appendsStep_of_seqAppendStep (x := ⟨levelOperand v, s.seq.steplen⟩) rfl,
    appendsStep_of_seqAppendStep (x := ⟨levelOperand v, lenOperand n⟩) rfl⟩

/-! The rewrites outside the sequence. -/

/-- Settles O52: both rewrites test `IDX < n_steps` before they touch the store. -/
theorem rewriteOutOfRangeIsIgnored : Obligations.RewriteOutOfRangeIsIgnored := by
  intro s i v n hle
  have hout : ¬ s.seq.hasStep i = true := fun hi => absurd (Seq.hasStep_iff.mp hi) (Nat.not_lt.mpr hle)
  exact ⟨if_neg hout, if_neg hout⟩

end Sys2Proof.Machine
end

section
/-! The command word and its decoder: a word decodes to the operation of the row its opcode names, with the operands
read from the fields that row lists (R81, R90 to R92). The encoder's words carry the operands in those fields (R94). -/

namespace Sys2Proof

open Machine Claims Laws.Opcode

/-! The fields of a packed word (R81); `opField_packCmd` is the fourth. -/

@[simp] theorem bField_packCmd (op idx : BitVec 8) (a : BitVec 16) (b : BitVec 32) :
    bField (packCmd op idx a b) = b := BitVec.extractLsb'_append_eq_right

@[simp] theorem aField_packCmd (op idx : BitVec 8) (a : BitVec 16) (b : BitVec 32) :
    aField (packCmd op idx a b) = a := by
  rw [aField, packCmd, BitVec.extractLsb'_append_eq_of_le (by decide)]
  exact BitVec.extractLsb'_append_eq_right

@[simp] theorem idxField_packCmd (op idx : BitVec 8) (a : BitVec 16) (b : BitVec 32) :
    idxField (packCmd op idx a b) = idx := by
  rw [idxField, packCmd, BitVec.extractLsb'_append_eq_of_le (by decide),
    BitVec.extractLsb'_append_eq_of_le (by decide)]
  exact BitVec.extractLsb'_append_eq_right

theorem fitsB_iff {n : Int} : fitsB n = true ↔ -2147483648 ≤ n ∧ n < 2147483648 := by simp [fitsB]

theorem fitsA_iff {v : Int} : fitsA v = true ↔ -32768 ≤ v ∧ v < 32768 := by simp [fitsA]

theorem fitsIdx_iff {i : Nat} : fitsIdx i = true ↔ i < 256 := by simp [fitsIdx]

/-! Each operand survives its field: what was encoded is read back (R82 to R86, R94). -/

section
variable {op idx : BitVec 8} {a : BitVec 16} {b : BitVec 32}

theorem bSigned_packCmd {n : Int} (h : fitsB n = true) : bSigned (packCmd op idx a (encodeB n)) = n := by
  obtain ⟨hlo, hhi⟩ := fitsB_iff.mp h
  rw [bSigned, bField_packCmd]
  exact BitVec.toInt_ofInt_eq_self (by decide) hlo hhi

theorem aSigned_packCmd {v : Int} (h : fitsA v = true) : aSigned (packCmd op idx (encodeA v) b) = v := by
  obtain ⟨hlo, hhi⟩ := fitsA_iff.mp h
  rw [aSigned, aField_packCmd]
  exact BitVec.toInt_ofInt_eq_self (by decide) hlo hhi

theorem idxOperand_packCmd {i : Nat} (h : fitsIdx i = true) : idxOperand (packCmd op (encodeIdx i) a b) = i := by
  rw [idxOperand, idxField_packCmd]
  exact Nat.mod_eq_of_lt (fitsIdx_iff.mp h)

theorem aBool_packCmd (x : Bool) : aBool (packCmd op idx (encodeBool x) b) = x := by
  rw [aBool, aField_packCmd]
  cases x <;> rfl

end

/-! Each operand that is read fits its field (R82 to R86). -/

theorem fitsB_bSigned (w : CmdWord) : fitsB (bSigned w) = true :=
  fitsB_iff.mpr ⟨BitVec.le_toInt (bField w), BitVec.toInt_lt (x := bField w)⟩

theorem fitsA_aSigned (w : CmdWord) : fitsA (aSigned w) = true :=
  fitsA_iff.mpr ⟨BitVec.le_toInt (aField w), BitVec.toInt_lt (x := aField w)⟩

theorem fitsIdx_idxOperand (w : CmdWord) : fitsIdx (idxOperand w) = true := fitsIdx_iff.mpr (idxField w).isLt

/-! The decoder. -/

/-- The operation of the same row of R90 with its operands read from the fields of `w`. -/
def Instr.reread (w : CmdWord) : Instr → Instr
  | .envRender => .envRender
  | .envAtk _ => .envAtk (bSigned w)
  | .envDec _ => .envDec (bSigned w)
  | .envSus _ => .envSus (aSigned w)
  | .envRel _ => .envRel (bSigned w)
  | .envRetrig _ => .envRetrig (aBool w)
  | .envGate _ => .envGate (aBool w)
  | .envHeod _ _ => .envHeod (aField w) (bField w)
  | .envHeor _ _ => .envHeor (aField w) (bField w)
  | .lfoRender => .lfoRender
  | .lfoPeriod _ => .lfoPeriod (bSigned w)
  | .lfoDuty _ => .lfoDuty (bSigned w)
  | .seqRender => .seqRender
  | .seqSteplen _ => .seqSteplen (bSigned w)
  | .seqGlide _ => .seqGlide (bSigned w)
  | .seqAppend _ => .seqAppend (aSigned w)
  | .seqAppendl _ _ => .seqAppendl (aSigned w) (bSigned w)
  | .seqSetstep _ _ => .seqSetstep (idxOperand w) (aSigned w)
  | .seqSetstepl _ _ _ => .seqSetstepl (idxOperand w) (aSigned w) (bSigned w)
  | .seqClear => .seqClear
  | .seqGate _ => .seqGate (aBool w)
  | .seqReset => .seqReset
  | .seqHeos _ _ => .seqHeos (aField w) (bField w)
  | .seqNsteps => .seqNsteps
  | .seqUniform _ => .seqUniform (aBool w)

/-- A word with the opcode of a row decodes to that row's operation, with the operands of the word (R90). -/
theorem decode_of_opField {w : CmdWord} {i : Instr} (hop : opField w = rowOpcode i) : decode w = .ok (i.reread w) := by
  unfold decode
  rw [hop]
  cases i <;> rfl

/-- A word that decodes to an operation has its row's opcode and the operands it reads from the word (R90). -/
theorem decode_eq_ok {w : CmdWord} {i : Instr} (h : decode w = .ok i) : opField w = rowOpcode i ∧ i = i.reread w := by
  unfold decode at h
  split at h
  case h_26 => cases h
  all_goals
    cases h
    exact ⟨BitVec.eq_of_toNat_eq ‹_›, rfl⟩

/-- A word that is refused is refused by its opcode, which is outside the table (R91). -/
theorem decode_eq_error {w : CmdWord} {e : DecodeError} (h : decode w = .error e) :
    e = .illegalOpcode (opField w) ∧ IllegalOp w := by
  unfold decode at h
  split at h
  case h_26 =>
    refine ⟨(Except.error.inj h).symm, ?_⟩
    unfold IllegalOp
    simp only [imp_false] at *
    omega
  all_goals cases h

/-- No row has an illegal opcode (R90, R91). -/
theorem not_illegalOp_of_opField {w : CmdWord} {i : Instr} (hop : opField w = rowOpcode i) : ¬ IllegalOp w := by
  unfold IllegalOp
  rw [hop]
  cases i <;> simp [rowOpcode]

theorem Claims.IllegalOp.of_opField_eq {w w' : CmdWord} (hill : IllegalOp w) (hop : opField w = opField w') :
    IllegalOp w' := by
  rwa [IllegalOp, hop] at hill

theorem decode_of_illegalOp {w : CmdWord} (hill : IllegalOp w) : decode w = .error (.illegalOpcode (opField w)) := by
  match h : decode w with
  | .error e => rw [(decode_eq_error h).1]
  | .ok i => exact absurd hill (not_illegalOp_of_opField (decode_eq_ok h).1)

/-- The operands of a well-formed operation are the ones its canonical word carries (R94). -/
theorem reread_encode {i : Instr} (hwf : i.wellFormed = true) : i.reread (encode i) = i := by
  cases i with
  | envRender | lfoRender | seqRender | seqClear | seqReset | seqNsteps => rfl
  | envAtk n | envDec n | envRel n | lfoPeriod n | lfoDuty n | seqSteplen n | seqGlide n =>
    exact congrArg _ (bSigned_packCmd hwf)
  | envSus v | seqAppend v => exact congrArg _ (aSigned_packCmd hwf)
  | envRetrig b | envGate b | seqGate b | seqUniform b => exact congrArg _ (aBool_packCmd b)
  | envHeod h c | envHeor h c | seqHeos h c => exact congrArg₂ _ (aField_packCmd ..) (bField_packCmd ..)
  | seqAppendl v n =>
    obtain ⟨hv, hn⟩ := Bool.and_eq_true_iff.mp hwf
    exact congrArg₂ _ (aSigned_packCmd hv) (bSigned_packCmd hn)
  | seqSetstep k v =>
    obtain ⟨hk, hv⟩ := Bool.and_eq_true_iff.mp hwf
    exact congrArg₂ _ (idxOperand_packCmd hk) (aSigned_packCmd hv)
  | seqSetstepl k v n =>
    obtain ⟨hkv, hn⟩ := Bool.and_eq_true_iff.mp hwf
    obtain ⟨hk, hv⟩ := Bool.and_eq_true_iff.mp hkv
    simp only [encode, Instr.reread, idxOperand_packCmd hk, aSigned_packCmd hv, bSigned_packCmd hn]

/-- Settles O2: the canonical word has the opcode of the operation's row, and each operand is read back from the field
it was put in. -/
theorem encodeThenDecodeIsIdentity : Obligations.EncodeThenDecodeIsIdentity := by
  intro i hwf
  rw [decode_of_opField (opField_encode i), reread_encode hwf]

/-- Whatever the word, the operands read from it fit their fields (R82 to R86). -/
theorem wellFormed_reread (w : CmdWord) (i : Instr) : (i.reread w).wellFormed = true := by
  have hB := fitsB_bSigned w
  have hA := fitsA_aSigned w
  have hIdx := fitsIdx_idxOperand w
  cases i with
  | envRender | envRetrig | envGate | envHeod | envHeor | lfoRender | seqRender | seqClear | seqGate | seqReset
  | seqHeos | seqNsteps | seqUniform => rfl
  | envAtk | envDec | envRel | lfoPeriod | lfoDuty | seqSteplen | seqGlide => exact hB
  | envSus | seqAppend => exact hA
  | seqAppendl => simp only [Instr.reread, Instr.wellFormed, hA, hB, Bool.and_self]
  | seqSetstep => simp only [Instr.reread, Instr.wellFormed, hIdx, hA, Bool.and_self]
  | seqSetstepl => simp only [Instr.reread, Instr.wellFormed, hIdx, hA, hB, Bool.and_self]

/-- Settles O3: a decoded operation has the operands read from its word. -/
theorem decodedOperandsAreInRange : Obligations.DecodedOperandsAreInRange := by
  intro w i h
  rw [(decode_eq_ok h).2]
  exact wellFormed_reread w i

/-- Settles O4: the decoder refuses a word by its opcode only, and the 25 rows are the opcodes it accepts. -/
theorem decoderRejectsExactlyTheIllegalOpcodes : Obligations.DecoderRejectsExactlyTheIllegalOpcodes :=
  fun _ => ⟨fun h => (decode_eq_error h).2, decode_of_illegalOp⟩

/-- Only the fields that the row lists enter the operation (R92). -/
theorem reread_congr {w w' : CmdWord} (i : Instr)
    (hIdx : (rowOpcode i).toNat ∈ opsReadingIdx → idxField w = idxField w')
    (hA : (rowOpcode i).toNat ∈ opsReadingA → aField w = aField w')
    (hB : (rowOpcode i).toNat ∈ opsReadingB → bField w = bField w') : i.reread w = i.reread w' := by
  cases i with
  | envRender | lfoRender | seqRender | seqClear | seqReset | seqNsteps => rfl
  | envAtk | envDec | envRel | lfoPeriod | lfoDuty | seqSteplen | seqGlide =>
    simp only [Instr.reread, bSigned, hB (by simp [rowOpcode, opsReadingB])]
  | envSus | seqAppend | envRetrig | envGate | seqGate | seqUniform =>
    simp only [Instr.reread, aSigned, aBool, hA (by simp [rowOpcode, opsReadingA])]
  | envHeod | envHeor | seqHeos | seqAppendl =>
    simp only [Instr.reread, aSigned, bSigned, hA (by simp [rowOpcode, opsReadingA]),
      hB (by simp [rowOpcode, opsReadingB])]
  | seqSetstep =>
    simp only [Instr.reread, idxOperand, aSigned, hIdx (by simp [rowOpcode, opsReadingIdx]),
      hA (by simp [rowOpcode, opsReadingA])]
  | seqSetstepl =>
    simp only [Instr.reread, idxOperand, aSigned, bSigned, hIdx (by simp [rowOpcode, opsReadingIdx]),
      hA (by simp [rowOpcode, opsReadingA]), hB (by simp [rowOpcode, opsReadingB])]

/-- The effect of a word is that of what it decodes to (R92). -/
theorem runCommand_congr {w w' : CmdWord} (h : decode w = decode w') (s : State) :
    runCommand w s = runCommand w' s := by
  simp only [runCommand, h]

/-- Settles O5: two words of one row read equal operands from the fields the row lists, two words of no row are refused
by the same opcode, and the step on a word is decided by what the word decodes to. -/
theorem ignoredFieldsDoNotMatter : Obligations.IgnoredFieldsDoNotMatter := by
  intro w w' hop hIdx hA hB
  have hdec : decode w = decode w' := by
    match h : decode w with
    | .ok i =>
      obtain ⟨hrow, hi⟩ := decode_eq_ok h
      rw [hrow] at hIdx hA hB
      rw [decode_of_opField (hop.symm.trans hrow), ← reread_congr i hIdx hA hB, ← hi]
    | .error e =>
      obtain ⟨rfl, hill⟩ := decode_eq_error h
      rw [hop]
      exact (decode_of_illegalOp (hill.of_opField_eq hop)).symm
  refine ⟨hdec, fun s rest => ?_⟩
  rw [step_of_cmd rfl, step_of_cmd rfl]
  exact runCommand_congr hdec _

/-- Settles O8: the word leaves the stream and raises `ILLEGAL`, which writes the ports only. -/
theorem illegalOpcodeChangesNothing : Obligations.IllegalOpcodeChangesNothing := by
  intro s w rest hin hill
  rw [step_of_cmd hin, runCommand, decode_of_illegalOp hill]
  rfl

/-- Settles O1: the decoder evaluated on the ten words. -/
theorem sampleWordsDecode : Obligations.SampleWordsDecode := by
  unfold Obligations.SampleWordsDecode
  decide

end Sys2Proof
end

section
/-! What the core puts on its ports: the bit layout of a response and of an event (R88, R89), the response of every
operation (R210, R211), and the step on an assertion of `rst` (R80, R230). -/

namespace Sys2Proof.Machine

open Claims

/-- A concatenation is the high part shifted past the low part, as numbers. -/
theorem append_toNat_eq_add {m n : Nat} (x : BitVec m) (y : BitVec n) :
    (x ++ y).toNat = x.toNat * 2 ^ n + y.toNat := by
  rw [BitVec.toNat_append, ← Nat.shiftLeft_add_eq_or_of_lt y.isLt, Nat.shiftLeft_eq]

theorem Response.word_toNat (r : Response) : r.word.toNat = r.status.code.toNat * 65536 + r.data.toNat :=
  append_toNat_eq_add _ _

theorem Event.word_toNat (e : Event) :
    e.word.toNat = e.src.code.toNat * 281474976710656 + e.handler.toNat * 4294967296 + e.ctx.toNat := by
  rw [Event.word, append_toNat_eq_add, append_toNat_eq_add]
  omega

/-- Settles O6: by the layout of the two words and the codes of `STATUS` and `SRC`. -/
theorem portWordLayout : Obligations.PortWordLayout := by
  refine ⟨fun d => ?_, fun h c => ?_⟩
  · simp [Response.word_toNat, Status.code]
  · simp [Event.word_toNat, EventSrc.code]

/-- Settles O9: the step takes `rst` off the stream and resets the units. -/
theorem resetInputRestoresTheResetState : Obligations.ResetInputRestoresTheResetState := by
  intro s rest hin
  rw [step, takeInput, hin]
  rfl

/-! The responses. -/

theorem returnOk_rsp {s t : State} {v : OutWord} {ev : Option Event} (h : returnOk s v ev = .next t) :
    t.rsp = okWith v := by
  rw [returnOk_eq_next.mp h, State.answer_rsp]
  rfl

/-- A setter with a compare answers `OK`, 0 in both branches (R109). -/
theorem setter_rsp {α : Type} {c : Prop} [Decidable c] {s t : State} {x : Res α} {put : State → α → State}
    (h : (if c then returnOk s 0 none else andThen x fun a => returnOk (put s a) 0 none) = .next t) :
    t.rsp = okWith 0 := by
  obtain ⟨-, rfl⟩ | ⟨-, a, -, ha⟩ := setter_eq_next h
  · rfl
  · exact returnOk_rsp ha

theorem execEnvRender_rsp {s t : State} (h : execEnvRender s = .next t) : t.rsp = okWith t.env.out := by
  obtain ⟨e₁, e₂, ev, -, -, rfl⟩ := execEnvRender_eq_next h
  rfl

theorem execLfoRender_rsp {s t : State} (h : execLfoRender s = .next t) : t.rsp = okWith t.lfo.out := by
  obtain ⟨l, r, -, -, rfl⟩ := execLfoRender_eq_next h
  rfl

theorem execSeqRender_rsp {s t : State} (h : execSeqRender s = .next t) : t.rsp = okWith t.seq.out := by
  obtain ⟨-, rfl⟩ | ⟨-, q₁, ev, q₂, -, -, rfl⟩ := execSeqRender_eq_next h
  · rfl
  · rfl

/-- An append answers `FULL` at the capacity and `OK` below it (R66, R212). -/
theorem seqAppendStep_rsp {s t : State} {x : Step} (h : seqAppendStep s x = .next t) :
    t.rsp = if s.params.seqCap ≤ s.seq.nSteps.toNat then some { status := .full, data := 0 } else okWith 0 := by
  obtain ⟨hfull, rfl⟩ | ⟨hroom, rfl⟩ := seqAppendStep_eq_next h
  · rw [if_pos hfull, State.answer_rsp]
  · rw [if_neg (Nat.not_le.mpr hroom), State.answer_rsp]
    rfl

theorem execSeqSetstep_rsp {s t : State} {i : Nat} {v : Int} (h : execSeqSetstep i v s = .next t) :
    t.rsp = okWith 0 := by
  obtain ⟨-, rfl⟩ | ⟨-, x, q, -, -, rfl⟩ := execSeqSetstep_eq_next h
  · rfl
  · rfl

theorem execSeqSetstepl_rsp {s t : State} {i : Nat} {v n : Int} (h : execSeqSetstepl i v n s = .next t) :
    t.rsp = okWith 0 := by
  obtain ⟨-, rfl⟩ | ⟨-, x, q₁, q₂, -, -, -, rfl⟩ := execSeqSetstepl_eq_next h
  · rfl
  · rfl

/-- Settles O25: the renders and the appends by what they can do; every other operation ends in `returnOk`. -/
theorem everyOperationAnswersItsResponse : Obligations.EveryOperationAnswersItsResponse := by
  intro i s t h
  cases i with
  | envRender => exact execEnvRender_rsp h
  | lfoRender => exact execLfoRender_rsp h
  | seqRender => exact execSeqRender_rsp h
  | seqAppend | seqAppendl => exact seqAppendStep_rsp h
  | seqSetstep => exact execSeqSetstep_rsp h
  | seqSetstepl => exact execSeqSetstepl_rsp h
  | envAtk | envDec | envSus | envRel => exact setter_rsp (put := State.withEnv) h
  | lfoPeriod | lfoDuty => exact setter_rsp (put := State.withLfo) h
  | envGate =>
    obtain ⟨e, -, hdone⟩ := andThen_eq_next.mp h
    exact returnOk_rsp hdone
  | envRetrig | envHeod | envHeor | seqSteplen | seqGlide | seqClear | seqGate | seqReset | seqHeos | seqNsteps
  | seqUniform => exact returnOk_rsp h

end Sys2Proof.Machine
end

section
/-! The ramp primitive and the quantizer in numbers: the slope division and its remainder (R101), rounding of the
accumulator to a level (R106), and a run of accumulations as a line that neither overshoots its target (R110) nor ends a
level short of it (R111). -/

namespace Sys2Proof.Machine

open Claims

/-! The slope division. -/

theorem abs_tdiv (a : Int) (n : Nat) : |tdiv a n| = |a| / n := by
  rw [tdiv_eq, Int.abs_eq_natAbs, Int.abs_eq_natAbs, Int.natAbs_tdiv]
  rfl

/-- What `n` slopes leave of `a`. -/
theorem sub_mul_tdiv (a : Int) (n : Nat) : a - n * tdiv a n = Int.tmod a n := by
  rw [tdiv_eq, Int.tmod_def]

theorem abs_tmod (a : Int) (n : Nat) : |Int.tmod a n| = |a| % n := by
  rw [Int.abs_eq_natAbs, Int.abs_eq_natAbs, Int.natAbs_tmod, Int.natCast_emod, Int.natAbs_natCast]

/-- Settles O29: in magnitudes `tdiv` is the floored division, whose remainder is in `[0, n)`. -/
theorem slopeDivisionRoundsTowardZero : Obligations.SlopeDivisionRoundsTowardZero := by
  intro a n hn
  have hpos : (0 : Int) < n := by omega
  have hdiv := Int.mul_ediv_add_emod |a| n
  have hlo := Int.emod_nonneg |a| hpos.ne'
  have hhi := Int.emod_lt_of_pos |a| hpos
  rw [abs_tdiv]
  exact ⟨tdiv_eq a n, by omega, by omega, fun h => if_pos h, fun h => if_neg (by omega)⟩

/-! The quantizer. -/

theorem clampq_quantized (v : Acc) : QuantizedFrom (clampq v) v := clampq_toNat v

/-- In range the clamp does nothing, and the level is the nearest, with halves up (R106). -/
theorem clampq_nearest {v : Acc} (h : InRange v.toInt) :
    (2 * ((clampq v).toNat : Int) - 1) * 524288 ≤ v.toInt ∧ v.toInt < (2 * ((clampq v).toNat : Int) + 1) * 524288 := by
  have hq := clampq_toNat v
  obtain ⟨hlo, hhi⟩ := h
  unfold fxMax at hhi
  omega

/-- Settles O30: by the floor `clampq` takes, its bound and its monotonicity. -/
theorem quantizerRoundsHalfUpAndClamps : Obligations.QuantizerRoundsHalfUpAndClamps :=
  ⟨fun v => ⟨clampq_quantized v, clampq_le v, clampq_nearest⟩, fun _ _ => clampq_mono, clampq_fxReg⟩

/-! A run of accumulations. -/

theorem accumulateTimes_succ (k : Nat) (r : Ramp) :
    accumulateTimes (k + 1) r = andThen (accumulate r) (accumulateTimes k) := by
  rw [accumulateTimes]
  cases accumulate r <;> rfl

/-- All that `k` accumulations can do (R105). -/
theorem accumulateTimes_eq_next {k : Nat} {r r' : Ramp} (h : accumulateTimes k r = .next r') :
    r'.value.toInt = r.after k ∧ r'.phase.toNat = r.phase.toNat + k ∧ r'.slope = r.slope ∧ r'.len = r.len := by
  induction k generalizing r with
  | zero =>
    obtain rfl := Host.Outcome.next.inj h
    simp [Ramp.after]
  | succ k ih =>
    rw [accumulateTimes_succ, andThen_eq_next] at h
    obtain ⟨r₁, hacc, hrest⟩ := h
    obtain ⟨hval₁, hph₁, hsl₁, hlen₁⟩ := accumulate_eq_next hacc
    obtain ⟨hval, hph, hsl, hlen⟩ := ih hrest
    refine ⟨?_, by omega, hsl.trans hsl₁, hlen.trans hlen₁⟩
    rw [hval, Ramp.after, Ramp.after, hval₁, hsl₁]
    push_cast
    ring

/-- `k` accumulations complete when the line is in range at both ends and `k` ticks are left before `len`
(R105, R110). -/
theorem accumulateTimes_completes {k : Nat} {r : Ramp} (h0 : InRange r.value.toInt) (hk : InRange (r.after k))
    (hlen : r.phase.toNat + k ≤ r.len.toNat) : ∃ r', accumulateTimes k r = .next r' := by
  induction k generalizing r with
  | zero => exact ⟨r, rfl⟩
  | succ k ih =>
    have h1 : InRange (r.value.toInt + r.slope.toInt) := inRange_next_tick h0 (k := (k + 1 : Nat)) (by omega) hk
    obtain ⟨r₁, hacc⟩ := accumulate_completes h1 (by omega)
    obtain ⟨hval₁, hph₁, hsl₁, hlen₁⟩ := accumulate_eq_next hacc
    have hafter : r₁.after k = r.after (k + 1 : Nat) := by
      rw [Ramp.after, Ramp.after, hval₁, hsl₁]
      push_cast
      ring
    rw [accumulateTimes_succ, hacc, andThen_next]
    exact ih (by rwa [hval₁]) (by rwa [hafter]) (by rw [hph₁, hlen₁]; omega)

/-- `k` of the `n` steps of a ramp lie between its start and its target: the slope has the sign of `t - v`, and `n` of it
do not exceed `t - v` (R110). -/
theorem tdiv_line_between (v t : Int) {n k : Nat} (h1 : 1 ≤ n) (hk : k ≤ n) :
    min v t ≤ v + k * tdiv (t - v) n ∧ v + k * tdiv (t - v) n ≤ max v t := by
  obtain ⟨rest, hdiv, hpos, hneg⟩ := tdiv_rest (t - v) n h1
  have hk' : (k : Int) ≤ n := by omega
  rcases le_total 0 (t - v) with h | h
  · obtain ⟨hrest, -, hq⟩ := hpos h
    have hstart : 0 ≤ k * tdiv (t - v) n := mul_nonneg (by omega) hq
    have hend := mul_le_mul_of_nonneg_right hk' hq
    omega
  · obtain ⟨hrest, -, hq⟩ := hneg h
    have hstart : k * tdiv (t - v) n ≤ 0 := mul_nonpos_of_nonneg_of_nonpos (by omega) hq
    have hend := mul_le_mul_of_nonpos_right hk' hq
    omega

/-- The accumulator `k` ticks after `ramp_to`. -/
theorem rampTo_after {r r0 : Ramp} {t : Int} {n : Nat} (h : rampTo r t n = .next r0) (k : Int) :
    r0.after k = r.value.toInt + k * tdiv (t - r.value.toInt) n := by
  obtain ⟨hval, -, hsl, -⟩ := rampTo_eq_next h
  rw [Ramp.after, hval, hsl]

/-- Settles O32: the line of the ramp stays between two points in range, so every accumulation on it completes. -/
theorem rampNeverOvershoots : Obligations.RampNeverOvershoots := by
  intro r t n hv ht h1 hfit
  obtain ⟨r0, h0⟩ := rampTo_completes (n := n) hv ht (by unfold Fits at hfit; unfold counterSize; omega)
  obtain ⟨hval₀, hph₀, -, hlen₀⟩ := rampTo_eq_next h0
  refine ⟨r0, h0, fun k hk => ?_⟩
  have hline := rampTo_after h0 k
  obtain ⟨hlo, hhi⟩ := tdiv_line_between r.value.toInt t h1 hk
  rw [← hline] at hlo hhi
  have hin : InRange (r0.after k) := ⟨(le_min hv.1 ht.1).trans hlo, hhi.trans (max_le hv.2 ht.2)⟩
  obtain ⟨rk, hrk⟩ := accumulateTimes_completes (by rwa [hval₀]) hin (by rw [hph₀, hlen₀]; omega)
  obtain ⟨hval, hph, hsl, hlen⟩ := accumulateTimes_eq_next hrk
  rw [← hval] at hlo hhi
  exact ⟨rk, hrk, by rw [hval, hline, tdiv_eq], by rw [hph, hph₀], hsl, hlen, hlo, hhi⟩

/-- Settles O33: the distance left at the end is the remainder of the division, which has the sign of `t - v0`. -/
theorem rampEndsWithinOneLevelOfItsTarget : Obligations.RampEndsWithinOneLevelOfItsTarget := by
  intro r r0 rn t n hv ht h1 hn h0 hrun
  have hpos : (0 : Int) < n := by omega
  have hleft : t - rn.value.toInt = Int.tmod (t - r.value.toInt) n := by
    rw [(accumulateTimes_eq_next hrun).1, rampTo_after h0, ← sub_mul_tdiv]
    ring
  have hlt := Int.emod_lt_of_pos |t - r.value.toInt| hpos
  have habove : r.value.toInt ≤ t → 0 ≤ t - rn.value.toInt := fun h => hleft ▸ Int.tmod_nonneg _ (by omega)
  have hbelow : t ≤ r.value.toInt → t - rn.value.toInt ≤ 0 := fun h => by
    have hneg := Int.tmod_nonneg n (a := -(t - r.value.toInt)) (by omega)
    rw [Int.neg_tmod, ← hleft] at hneg
    omega
  rw [← abs_tmod, ← hleft] at hlt
  refine ⟨by rw [hleft, abs_tmod], by omega, by omega, fun h => ?_, fun h => ?_⟩
  · have := habove h
    omega
  · have := hbelow h
    omega

end Sys2Proof.Machine
end

section
/-! A setter that compares first: the clamped operand equal to the register changes nothing (R109), and a live change
whose new end does not fit its counter is refused as a whole (R112). -/

namespace Sys2Proof.Machine

open Claims

theorem lenOperand_of_lenOf {n : Int} {l : Length} (h : lenOf n = l.toNat) : lenOperand n = l := by
  rw [lenOf_eq] at h
  exact BitVec.eq_of_toNat_eq (by omega)

theorem levelOperand_of_levelOf {v : Int} {l : Level} (h : levelOf v = l.toNat) : levelOperand v = l := by
  rw [levelOf_eq] at h
  exact BitVec.eq_of_toNat_eq (by omega)

theorem dutyOf_eq (d : Int) : dutyOf d = (dutyOperand d).val := (dutyOperand_val d).symm

theorem dutyOperand_of_dutyOf {x : Int} {d : Duty} (h : dutyOf x = d.val) : dutyOperand x = d := by
  rw [dutyOf_eq] at h
  exact Fin.ext (by omega)

/-- Settles O27: six setters compare and answer; `SEQ.STEPLEN` and `SEQ.GLIDE` write the register's own value. -/
theorem setterWithTheCurrentValueIsANoOp : Obligations.SetterWithTheCurrentValueIsANoOp := by
  intro s x
  refine ⟨fun h => if_pos (lenOperand_of_lenOf h), fun h => if_pos (lenOperand_of_lenOf h),
    fun h => if_pos (lenOperand_of_lenOf h), fun h => if_pos (levelOperand_of_levelOf h),
    fun h => if_pos (lenOperand_of_lenOf h), fun h => if_pos (dutyOperand_of_dutyOf h), fun h => ?_, fun h => ?_⟩
  · rw [exec, execSeqSteplen, lenOperand_of_lenOf h]
    rfl
  · rw [exec, execSeqGlide, lenOperand_of_lenOf h]
    rfl

/-- The slope of a ramp between two points in range fits its register (R110). -/
theorem slope_fits {v t : Int} (hv : InRange v) (ht : InRange t) (n : Nat) :
    -2147483648 ≤ tdiv (t - v) n ∧ tdiv (t - v) n < 2147483648 := by
  unfold InRange fxMax at hv ht
  have hdist : |t - v| ≤ 267386880 := abs_le.mpr ⟨by omega, by omega⟩
  obtain ⟨hlo, hhi⟩ := abs_le.mp ((tdiv_bounds (t - v) n).trans hdist)
  omega

/-- `ramp_to` with a slope in range is refused when `phase + n` does not fit `len` (R112). -/
theorem rampTo_refused {r : Ramp} {t : Int} {n : Nat} (hv : InRange r.value.toInt) (ht : InRange t)
    (hn : counterSize ≤ r.phase.toNat + n) : rampTo r t n = .refused .counterOverflow := by
  rw [rampTo, accReg_next (slope_fits hv ht n), andThen_next, counterReg_refused hn, andThen_refused]

theorem remainTicks_eq (p : Params) (ph : Counter) (l : Length) :
    remainTicks p ph l.toNat = remainLen p.minRecompLen ph l := (remainLen_cast _ _ _).symm

/-- Settles O28: the slope is in range, so it is the write of `len` that stops. -/
theorem counterOverflowIsRefused : Obligations.CounterOverflowIsRefused := by
  intro s n hinv hst hne hfit
  have hnew : lenOperand n ≠ s.env.atkLen := fun h => hne (by rw [lenOf_eq, h])
  rw [lenOf_eq, remainTicks_eq] at hfit
  have hover : counterSize ≤ s.env.ramp.phase.toNat + remainLen s.params.minRecompLen s.env.ramp.phase (lenOperand n) := by
    unfold Fits at hfit
    unfold counterSize
    omega
  rw [exec, execEnvAtk, if_neg hnew, envRecompute, if_pos hst, envRampTo,
    rampTo_refused (EnvInv.inRange hinv.2.1) (fx_bounds levMax) hover]
  rfl

end Sys2Proof.Machine
end

section
/-! `ENV.RENDER` in the three situations of R108 and R122: in a hold state, before the end of a ramp, and at its end,
where it leaves the state as R120 says, does the entry action of R121 and makes the first accumulation. -/

namespace Sys2Proof.Machine

open Claims

/-- A state with a ramp is neither of the hold states (R108). -/
theorem EnvState.isRamp_iff {st : EnvState} : st.isRamp = true ↔ st ≠ .idle ∧ st ≠ .sustain := by
  cases st <;> simp [EnvState.isRamp]

theorem EnvInv.runs_of_isRamp {e : Env} (h : EnvInv e) (hst : e.state.isRamp = true) : ∃ t, e.ramp.RunsTo t := by
  obtain ⟨hidle, hsus⟩ := EnvState.isRamp_iff.mp hst
  obtain ⟨t, hrun, -⟩ := h.runs hidle hsus
  exact ⟨t, hrun⟩

theorem accumulate_ticked {r r' : Ramp} (h : accumulate r = .next r') : Ticked r r' := accumulate_eq_next h

/-! The transition: which state a render leaves for, and with which event (R120). -/

/-- The state a ramp state goes to at its end. -/
def Env.exitState (e : Env) : EnvState :=
  match e.state with
  | .attack => .decay
  | .decay => if e.retrigger then .attack else .sustain
  | .sustainAdjust => .sustain
  | .release => .idle
  | .idle => .idle
  | .sustain => .sustain

/-- The event of leaving a state at its end. -/
def Env.exitEvent (e : Env) : Option Event :=
  match e.state with
  | .decay => slotEvent .eod e.eod
  | .release => slotEvent .eor e.eor
  | .attack | .sustainAdjust | .idle | .sustain => none

theorem envTransition_atEnd (p : Params) {e : Env} (hst : e.state.isRamp = true)
    (hend : e.ramp.len.toNat ≤ e.ramp.phase.toNat) :
    envTransition p e = andThen (enterEnv p e e.exitState) fun e' => .next (e', e.exitEvent) := by
  have hcond : (e.state.isRamp && e.ramp.atEnd) = true := by rw [hst, atEnd_of_le hend]; rfl
  rw [envTransition, if_pos hcond, Env.exitState, Env.exitEvent]
  cases hs : e.state with
  | attack | decay | sustainAdjust | release => rfl
  | idle | sustain => simp [hs, EnvState.isRamp] at hst

theorem envTransition_of_hold (p : Params) {e : Env} (hst : e.state.isRamp = false) :
    envTransition p e = .next (e, none) := by
  rw [envTransition, hst]
  rfl

theorem envTransition_of_lt (p : Params) {e : Env} (hlt : e.ramp.phase.toNat < e.ramp.len.toNat) :
    envTransition p e = .next (e, none) := by
  rw [envTransition, not_atEnd hlt, Bool.and_false]
  rfl

/-! The entry action and the first accumulation (R108, R121). -/

/-- What a render that enters `st` from the envelope `e` leaves in the ramp: the first tick of the ramp of `st`, or the
level `st` holds. -/
def Env.Arrives (p : Params) (e : Env) (st : EnvState) (r : Ramp) : Prop :=
  match st with
  | .attack => FirstTick e.ramp r (fx levMax) (entryLen e.atkLen)
  | .decay => FirstTick e.ramp r (fx e.susLev) (entryLen e.decLen)
  | .release => FirstTick e.ramp r (fx levMin) (entryLen e.relLen)
  | .sustainAdjust => FirstTick e.ramp r (fx e.susLev) p.minRecompLen
  | .sustain => r.HoldsAt e.susLev
  | .idle => r.HoldsAt levMin

theorem enterRamp_advance {e : Env} {st : EnvState} {t : Int} {n : Nat} (hst : st.isRamp = true)
    (hv : InRange e.ramp.value.toInt) (ht : InRange t) (h1 : 1 ≤ n) (hn : n ≤ lenMax) :
    ∃ r, andThen (enterRamp e st t n) envAdvance = .next { e with state := st, ramp := r } ∧ FirstTick e.ramp r t n := by
  obtain ⟨r0, r1, hent, hacc, -, hsl, hval, hph, hlen⟩ := entry_first_tick hv ht h1 hn
  refine ⟨r1, ?_, by rw [hsl, tdiv_eq], hval, hph, by rw [hlen]⟩
  rw [enterRamp, hent, andThen_next, andThen_next, envAdvance, if_pos hst, hacc]
  rfl

/-- Every entry from an accumulator in range completes with its first accumulation. -/
theorem enterEnv_advance {p : Params} {e : Env} (st : EnvState) (hp : p.Legal) (hv : InRange e.ramp.value.toInt) :
    ∃ r, andThen (enterEnv p e st) envAdvance = .next { e with state := st, ramp := r } ∧ e.Arrives p st r := by
  cases st with
  | idle | sustain => exact ⟨_, rfl, rfl⟩
  | attack | decay | release => exact enterRamp_advance rfl hv (fx_bounds _) (one_le_entryLen _) (entryLen_le _)
  | sustainAdjust => exact enterRamp_advance rfl hv (fx_bounds _) hp.1 hp.2.1

/-! The whole render. -/

/-- `s` after a render that leaves state `st`, ramp `r` and fires `ev`. -/
def State.rendered (s : State) (st : EnvState) (r : Ramp) (ev : Option Event) : State :=
  { s with env := { s.env with state := st, ramp := r, out := clampq r.value }
           rsp := okWith (clampq r.value)
           evt := ev }

/-- A render quantizes the accumulator its transition and accumulation leave. -/
theorem execEnvRender_of_parts {s : State} {x : Res Env} {st : EnvState} {r : Ramp} {ev : Option Event}
    (htr : envTransition s.params s.env = andThen x fun e => .next (e, ev))
    (hadv : andThen x envAdvance = .next { s.env with state := st, ramp := r }) :
    exec .envRender s = .next (s.rendered st r ev) := by
  obtain ⟨e, rfl, he⟩ := andThen_eq_next.mp hadv
  rw [exec, execEnvRender, htr, andThen_next, andThen_next, he]
  rfl

theorem execEnvRender_of_hold {s : State} (hst : s.env.state.isRamp = false) :
    exec .envRender s = .next (s.rendered s.env.state s.env.ramp none) := by
  refine execEnvRender_of_parts (x := .next s.env) (envTransition_of_hold _ hst) ?_
  rw [andThen_next, envAdvance, hst]
  rfl

theorem execEnvRender_within {s : State} (hinv : Inv s) (hst : s.env.state.isRamp = true)
    (hlt : s.env.ramp.phase.toNat < s.env.ramp.len.toNat) :
    ∃ r, exec .envRender s = .next (s.rendered s.env.state r none) ∧ Ticked s.env.ramp r := by
  obtain ⟨-, henv, -⟩ := hinv
  obtain ⟨t, hrun⟩ := henv.runs_of_isRamp hst
  obtain ⟨r, hacc, -⟩ := tick_completes hrun hlt
  refine ⟨r, execEnvRender_of_parts (x := .next s.env) (envTransition_of_lt _ hlt) ?_, accumulate_ticked hacc⟩
  rw [andThen_next, envAdvance, if_pos hst, hacc]
  rfl

theorem execEnvRender_atEnd {s : State} (hinv : Inv s) (hst : s.env.state.isRamp = true)
    (hend : s.env.ramp.len.toNat ≤ s.env.ramp.phase.toNat) :
    ∃ r, exec .envRender s = .next (s.rendered s.env.exitState r s.env.exitEvent) ∧
      s.env.Arrives s.params s.env.exitState r := by
  obtain ⟨hp, henv, -⟩ := hinv
  obtain ⟨r, hadv, harr⟩ := enterEnv_advance s.env.exitState hp henv.inRange
  exact ⟨r, execEnvRender_of_parts (envTransition_atEnd _ hst hend) hadv, harr⟩

/-! A hold state's level, in the register and at the output. -/

theorem HoldsAt.heldAt {r : Ramp} {l : Level} (h : r.HoldsAt l) : HeldAt r l.toNat := by
  obtain rfl := h
  exact ⟨fxReg_toInt l, rfl, rfl, rfl⟩

theorem HoldsAt.clampq_value {r : Ramp} {l : Level} (h : r.HoldsAt l) : (clampq r.value).toNat = l.toNat := by
  obtain rfl := h
  exact clampq_fxReg l

theorem entryTicks_eq (l : Length) : entryTicks l.toNat = entryLen l := by
  unfold entryTicks entryLen entryMinLen
  omega

theorem levMin_toNat : levMin.toNat = 0 := rfl

theorem levelFx_eq (l : Level) : levelFx l.toNat = fx l := by
  rw [levelFx, fx, one]
  rfl

/-- Settles O34: no transition and no accumulation, and the pinned accumulator quantizes to the level it holds. -/
theorem renderInAHoldState : Obligations.RenderInAHoldState := by
  intro s hinv hhold
  obtain ⟨-, ⟨-, henv⟩, -⟩ := hinv
  have hrun := execEnvRender_of_hold (s := s)
  obtain hst | hst := hhold <;> rw [hst] at henv hrun
  · refine ⟨_, by rw [hrun rfl, State.rendered, ← hst], ?_⟩
    rw [if_pos hst]
    exact HoldsAt.clampq_value henv
  · refine ⟨_, by rw [hrun rfl, State.rendered, ← hst], ?_⟩
    rw [if_neg (by rw [hst]; decide)]
    exact HoldsAt.clampq_value henv

/-- Settles O35: no transition, and one accumulation of a running ramp, which completes. -/
theorem renderWithinARampState : Obligations.RenderWithinARampState := by
  intro s hinv hidle hsus hlt
  obtain ⟨r, hrun, htick⟩ := execEnvRender_within hinv (EnvState.isRamp_iff.mpr ⟨hidle, hsus⟩) hlt
  exact ⟨r, _, hrun, htick, clampq_quantized _⟩

/-- Settles O36: the exit state and event of the state left, and what the render that enters the exit state leaves. -/
theorem renderAtTheEndOfARampState : Obligations.RenderAtTheEndOfARampState := by
  intro s hinv hidle hsus hend
  obtain ⟨r, hrun, harr⟩ := execEnvRender_atEnd hinv (EnvState.isRamp_iff.mpr ⟨hidle, hsus⟩) hend
  refine ⟨_, r, _, _, hrun, clampq_quantized _, ?_⟩
  cases hst : s.env.state <;> simp only [Env.exitState, Env.exitEvent, hst] at harr ⊢
  case idle => exact hidle hst
  case sustain => exact hsus hst
  case attack => exact ⟨trivial, by rwa [entryTicks_eq, levelFx_eq], trivial⟩
  case sustainAdjust => exact ⟨trivial, HoldsAt.heldAt harr, HoldsAt.clampq_value harr, trivial⟩
  case release =>
    have hheld : HeldAt r 0 := by simpa only [levMin_toNat, Nat.cast_zero] using HoldsAt.heldAt harr
    exact ⟨trivial, hheld, HoldsAt.clampq_value harr, trivial⟩
  case decay =>
    refine ⟨?_, trivial⟩
    cases hretrig : s.env.retrigger <;> simp only [hretrig, reduceIte, Bool.false_eq_true] at harr ⊢
    · exact ⟨trivial, HoldsAt.heldAt harr, HoldsAt.clampq_value harr⟩
    · exact ⟨trivial, by rwa [entryTicks_eq, ← fx_levMax]⟩

end Sys2Proof.Machine
end

section
/-! A whole attack from Idle, render by render: `AttackTick n k` is carried from the gate to the end of the ramp
(R113 c, R114). -/

namespace Sys2Proof.Machine

open Claims

/-- `k` renders into an attack over `n` ticks that began at accumulator 0. -/
structure AttackTick (n k : Nat) (t : State) : Prop where
  inv : Inv t
  state : t.env.state = .attack
  phase : t.env.ramp.phase.toNat = k
  len : t.env.ramp.len.toNat = n
  slope : t.env.ramp.slope.toInt = tdiv (fx levMax) n
  value : t.env.ramp.value.toInt = k * tdiv (fx levMax) n
  out : 1 ≤ k → t.env.out = clampq t.env.ramp.value

theorem renderTimes_succ {k : Nat} {s t : State} (h : renderTimes k s = .next t) :
    renderTimes (k + 1) s = exec .envRender t := by
  rw [renderTimes, h]

/-- A gate in Idle starts an attack over `max(atk_len, 1)` ticks from 0 (R121, R128). -/
theorem gate_starts_attack {s : State} (hinv : Inv s) (hidle : s.env.state = .idle) :
    ∃ s0, exec (.envGate true) s = .next s0 ∧ AttackTick (entryLen s.env.atkLen) 0 s0 := by
  have henv := hinv.2.1
  have hzero : s.env.ramp.value.toInt = 0 := by
    rw [EnvInv, hidle] at henv
    rw [henv.2, fxReg_toInt, fx_levMin]
  obtain ⟨r, hent, -, hval, hph, hsl, hlen⟩ :=
    entry_completes henv.inRange (fx_bounds levMax) (one_le_entryLen s.env.atkLen) (entryLen_le _)
  rw [hzero, sub_zero] at hsl
  have hrun : exec (.envGate true) s =
      .next ((s.withEnv { s.env with state := .attack, ramp := r }).answer .ok 0 none) := by
    rw [exec, execEnvGate, if_pos rfl, enterEnv, enterRamp, hent]
    rfl
  refine ⟨_, hrun, {
    inv := exec_keeps_inv hinv hrun
    state := rfl
    phase := hph
    len := hlen
    slope := hsl
    value := ?_
    out := fun h => absurd h (by decide) }⟩
  rw [Nat.cast_zero, zero_mul, ← hzero, ← hval]
  rfl

section
variable {n k : Nat} {s t u : State}

theorem AttackTick.isRamp (h : AttackTick n k t) : t.env.state.isRamp = true := by
  rw [h.state]
  rfl

theorem AttackTick.render (h : AttackTick n k t) (hk : k < n) :
    ∃ u, exec .envRender t = .next u ∧ AttackTick n (k + 1) u := by
  obtain ⟨r, hrun, hval, hph, hsl, hlen⟩ := execEnvRender_within h.inv h.isRamp (by rw [h.phase, h.len]; exact hk)
  refine ⟨_, hrun, {
    inv := exec_keeps_inv h.inv hrun
    state := h.state
    phase := hph.trans (by rw [h.phase])
    len := (congrArg BitVec.toNat hlen).trans h.len
    slope := (congrArg BitVec.toInt hsl).trans h.slope
    value := ?_
    out := fun _ => rfl }⟩
  calc r.value.toInt = k * tdiv (fx levMax) n + tdiv (fx levMax) n := by rw [hval, h.value, h.slope]
    _ = (k + 1 : Nat) * tdiv (fx levMax) n := by push_cast; ring

/-- Every render of an attack up to its length completes. -/
theorem AttackTick.renders (h : AttackTick n 0 s) (hk : k ≤ n) :
    ∃ t, renderTimes k s = .next t ∧ AttackTick n k t := by
  induction k with
  | zero => exact ⟨s, rfl, h⟩
  | succ k ih =>
    obtain ⟨t, hrun, ht⟩ := ih (by omega)
    rw [renderTimes_succ hrun]
    exact ht.render hk

/-- The slope of an attack is not negative, so its outputs never fall (R114). -/
theorem AttackTick.out_le (h : AttackTick n k t) (h' : AttackTick n (k + 1) u) (hk : 1 ≤ k) :
    t.env.out.toNat ≤ u.env.out.toNat := by
  have hslope : 0 ≤ tdiv (fx levMax) n := by
    rw [tdiv, if_pos (fx_bounds levMax).1]
    exact Int.ediv_nonneg (fx_bounds levMax).1 (Int.natCast_nonneg n)
  rw [h.out hk, h'.out (by omega)]
  apply clampq_mono
  rw [h.value, h'.value]
  exact mul_le_mul_of_nonneg_right (by omega) hslope

/-- The attack ends `fx(255) mod n` below `fx(255)`, which quantizes to 255 up to half a level and else to 254. -/
theorem AttackTick.last_out (h : AttackTick n n t) (h1 : 1 ≤ n) (hn : n ≤ lenMax) :
    (t.env.out.toNat = 254 ∨ t.env.out.toNat = 255) ∧ (t.env.out.toNat = 255 ↔ 267386880 % (n : Int) ≤ 524288) := by
  have hpos : (0 : Int) < n := by omega
  have hend : t.env.ramp.value.toInt = 267386880 - 267386880 % (n : Int) := by
    have hdiv := Int.mul_ediv_add_emod 267386880 n
    rw [h.value, fx_levMax, tdiv, if_pos (by decide)]
    omega
  have hlo := Int.emod_nonneg 267386880 hpos.ne'
  have hhi := Int.emod_lt_of_pos 267386880 hpos
  have hq := clampq_toNat t.env.ramp.value
  rw [h.out h1]
  unfold lenMax at hn
  omega

theorem AttackTick.leaves (h : AttackTick n n t) : ∃ u, exec .envRender t = .next u ∧ u.env.state = .decay := by
  obtain ⟨r, hrun, -⟩ := execEnvRender_atEnd h.inv h.isRamp (by rw [h.phase, h.len])
  exact ⟨_, hrun, by rw [State.rendered, Env.exitState, h.state]⟩

end

/-- Settles O43: the gate starts the attack, each render but the last is followed by another of the attack, and the one
after the last leaves for Decay. -/
theorem attackFromIdleRunsForItsLength : Obligations.AttackFromIdleRunsForItsLength := by
  intro s hinv hidle
  obtain ⟨s0, hgate, h0⟩ := gate_starts_attack hinv hidle
  rw [entryTicks_eq]
  refine ⟨s0, hgate, fun k h1 hk => ?_⟩
  obtain ⟨t, hrun, ht⟩ := h0.renders (k := k) (by omega)
  refine ⟨t, hrun, ht.state, ht.phase, by rw [ht.len], fun hlt => ?_, fun hlast => ?_⟩ <;> rw [renderTimes_succ hrun]
  · obtain ⟨u, hu, htick⟩ := ht.render (by omega)
    exact ⟨u, hu, ht.out_le htick h1⟩
  · obtain rfl : k = entryLen s.env.atkLen := by omega
    obtain ⟨hlevel, hiff⟩ := ht.last_out h1 (entryLen_le _)
    exact ⟨hlevel, hiff, ht.leaves⟩

end Sys2Proof.Machine
end

section
/-! The setters of the envelope and the gate: what each completes with when the new end of the ramp fits `len`
(R121, R123 to R130). -/

namespace Sys2Proof.Machine

open Claims

/-- `ramp_to` from an accumulator in range completes when its end fits `len` (R102, R112). -/
theorem rampTo_of_fits {r : Ramp} {t : Int} {n : Nat} (hv : InRange r.value.toInt) (ht : InRange t)
    (hfit : Fits r.phase n) : ∃ r', rampTo r t n = .next r' ∧ RampedTo r r' t n := by
  unfold Fits at hfit
  obtain ⟨r', hr⟩ := rampTo_completes hv ht (n := n) (by unfold counterSize; omega)
  obtain ⟨hval, hph, hsl, hlen⟩ := rampTo_eq_next hr
  exact ⟨r', hr, hval, hph, by rw [hsl, tdiv_eq], by rw [hlen, Nat.cast_add]⟩

theorem envRampTo_of_fits {e : Env} {t : Int} {n : Nat} (hv : InRange e.ramp.value.toInt) (ht : InRange t)
    (hfit : Fits e.ramp.phase n) : ∃ r, envRampTo e t n = .next { e with ramp := r } ∧ RampedTo e.ramp r t n := by
  obtain ⟨r, hr, hramped⟩ := rampTo_of_fits hv ht hfit
  exact ⟨r, by rw [envRampTo, hr, andThen_next], hramped⟩

/-- The entry of a ramp state needs no room: it starts from `phase = 0` (R121). -/
theorem enterRamp_entered {e : Env} {t : Int} {n : Nat} (st : EnvState) (hv : InRange e.ramp.value.toInt)
    (ht : InRange t) (h1 : 1 ≤ n) (hn : n ≤ lenMax) :
    ∃ r, enterRamp e st t n = .next { e with state := st, ramp := r } ∧ Entered e.ramp r t n := by
  obtain ⟨r, hr, -, hval, hph, hsl, hlen⟩ := entry_completes hv ht h1 hn
  exact ⟨r, by rw [enterRamp, hr, andThen_next], hval, hph, by rw [hsl, tdiv_eq], by rw [hlen]⟩

/-- Settles O41: the three operations are one write each. -/
theorem envelopeFlagAndSlotSetters : Obligations.EnvelopeFlagAndSlotSetters := fun _ _ _ _ => ⟨rfl, rfl, rfl⟩

/-- Settles O42: both gates are the entry of a ramp state, from the accumulator as it is. -/
theorem gateEntersAttackOrRelease : Obligations.GateEntersAttackOrRelease := by
  intro s b hinv
  have hv := EnvInv.inRange hinv.2.1
  cases b with
  | true =>
    obtain ⟨r, hent, hr⟩ :=
      enterRamp_entered .attack hv (fx_bounds levMax) (one_le_entryLen s.env.atkLen) (entryLen_le _)
    refine ⟨r, ?_, by rwa [if_pos rfl, entryTicks_eq, ← fx_levMax]⟩
    rw [exec, execEnvGate, if_pos rfl, enterEnv, hent]
    rfl
  | false =>
    obtain ⟨r, hent, hr⟩ :=
      enterRamp_entered .release hv (fx_bounds levMin) (one_le_entryLen s.env.relLen) (entryLen_le _)
    refine ⟨r, ?_, by rwa [if_neg Bool.false_ne_true, entryTicks_eq, ← fx_levMin]⟩
    rw [exec, execEnvGate, if_neg Bool.false_ne_true, enterEnv, hent]
    rfl

/-! The length setters (R123, R124, R126). -/

/-- `op` is the compare, write and recomputation of a length setter: `put e l r` is `e` with `l` in the register `reg` and
the ramp `r`, which is a matter of record updates. -/
structure IsLengthSetter (op : Int → Instr) (reg : Env → Length) (put : Env → Length → Ramp → Env) (st : EnvState)
    (target : Env → Int) : Prop where
  run : ∀ n s, exec (op n) s =
    if lenOperand n = reg s.env then returnOk s 0 none
    else andThen
      (envRecompute s.params (put s.env (lenOperand n) s.env.ramp) st (target s.env) (lenOperand n)) (envDone s)
  put_self : ∀ e, put e (reg e) e.ramp = e := by intros; rfl
  put_state : ∀ e l r, (put e l r).state = e.state := by intros; rfl
  put_ramp : ∀ e l r, (put e l r).ramp = r := by intros; rfl
  put_with_ramp : ∀ e l r r', { put e l r with ramp := r' } = put e l r' := by intros; rfl
  target_inRange : ∀ e, InRange (target e)

section
variable {op : Int → Instr} {reg : Env → Length} {put : Env → Length → Ramp → Env} {st : EnvState}
  {target : Env → Int}

theorem IsLengthSetter.exec_of_old (h : IsLengthSetter op reg put st target) {s : State} {n : Int}
    (hold : lenOperand n = reg s.env) : exec (op n) s = .next (acknowledged s) := by
  rw [h.run, if_pos hold]
  rfl

/-- A new length with another state active is stored, and the ramp kept. -/
theorem IsLengthSetter.exec_of_inactive (h : IsLengthSetter op reg put st target) {s : State} {n : Int}
    (hnew : lenOperand n ≠ reg s.env) (hst : s.env.state ≠ st) :
    exec (op n) s = envDone s (put s.env (lenOperand n) s.env.ramp) := by
  rw [h.run, if_neg hnew, envRecompute, h.put_state, if_neg hst, andThen_next]

/-- A new length with its state active is stored, and the ramp re-aimed over the remaining ticks (R104). -/
theorem IsLengthSetter.exec_of_active (h : IsLengthSetter op reg put st target) {s : State} {n : Int} (hinv : Inv s)
    (hnew : lenOperand n ≠ reg s.env) (hst : s.env.state = st)
    (hfit : Fits s.env.ramp.phase (remainLen s.params.minRecompLen s.env.ramp.phase (lenOperand n))) :
    ∃ r, exec (op n) s = envDone s (put s.env (lenOperand n) r) ∧
      RampedTo s.env.ramp r (target s.env) (remainLen s.params.minRecompLen s.env.ramp.phase (lenOperand n)) := by
  have hramp := h.put_ramp s.env (lenOperand n) s.env.ramp
  obtain ⟨r, hr, hramped⟩ :=
    envRampTo_of_fits (e := put s.env (lenOperand n) s.env.ramp) (by rw [hramp]; exact EnvInv.inRange hinv.2.1)
      (h.target_inRange s.env) (by rwa [hramp])
  rw [h.put_with_ramp] at hr
  rw [hramp] at hramped
  exact ⟨r, by rw [h.run, if_neg hnew, envRecompute, h.put_state, if_pos hst, hramp, hr, andThen_next], hramped⟩

theorem IsLengthSetter.envLengthSetter (h : IsLengthSetter op reg put st target) :
    EnvLengthSetter op reg put st target := by
  intro s n hinv hfit
  by_cases hold : lenOperand n = reg s.env
  · have hlen : lenOf n = (reg s.env).toNat := by rw [lenOf_eq, hold]
    refine ⟨reg s.env, s.env.ramp, ?_, hlen.symm, by rw [if_neg fun hc => hc.1 hlen]⟩
    rw [h.exec_of_old hold, h.put_self]
    rfl
  · have hne : lenOf n ≠ (reg s.env).toNat := fun hlen => hold (lenOperand_of_lenOf hlen)
    by_cases hst : s.env.state = st
    · have hticks : remainTicks s.params s.env.ramp.phase (lenOf n) =
          remainLen s.params.minRecompLen s.env.ramp.phase (lenOperand n) := by rw [lenOf_eq, remainTicks_eq]
      obtain ⟨r, hrun, hramped⟩ := h.exec_of_active hinv hold hst (hticks ▸ hfit hne hst)
      exact ⟨_, r, hrun, (lenOf_eq n).symm, by rwa [if_pos ⟨hne, hst⟩, hticks]⟩
    · exact ⟨_, _, h.exec_of_inactive hold hst, (lenOf_eq n).symm, by rw [if_neg fun hc => hst hc.2]⟩

end

/-- Settles O37: `ENV.ATK` is a length setter toward `fx(LEV_MAX)`. -/
theorem attackLengthSetter : Obligations.AttackLengthSetter :=
  IsLengthSetter.envLengthSetter
    { run := fun _ _ => by rw [← fx_levMax]; rfl
      target_inRange := fun _ => by decide }

/-- Settles O38: `ENV.DEC` is a length setter toward `fx(sus_lev)`. -/
theorem decayLengthSetter : Obligations.DecayLengthSetter :=
  IsLengthSetter.envLengthSetter
    { run := fun _ _ => by rw [levelFx_eq]; rfl
      target_inRange := fun e => by rw [levelFx_eq]; exact fx_bounds e.susLev }

/-- Settles O39: `ENV.REL` is a length setter toward `fx(LEV_MIN)`. -/
theorem releaseLengthSetter : Obligations.ReleaseLengthSetter :=
  IsLengthSetter.envLengthSetter
    { run := fun _ _ => by rw [← fx_levMin]; rfl
      target_inRange := fun _ => by decide }

/-! The sustain level (R125). -/

/-- What a new sustain level, already in `e`, makes of the state and the ramp. -/
def Env.Resustains (p : Params) (e : Env) (st : EnvState) (r : Ramp) : Prop :=
  match e.state with
  | .decay => st = .decay ∧ RampedTo e.ramp r (fx e.susLev) (remainLen p.minRecompLen e.ramp.phase e.decLen)
  | .sustain => st = .sustainAdjust ∧ Entered e.ramp r (fx e.susLev) p.minRecompLen
  | .sustainAdjust => st = .sustainAdjust ∧ RampedTo e.ramp r (fx e.susLev) p.minRecompLen
  | .idle => st = .idle ∧ r = e.ramp
  | .attack => st = .attack ∧ r = e.ramp
  | .release => st = .release ∧ r = e.ramp

theorem envSusAct_completes {p : Params} {e : Env} (hp : p.Legal) (hv : InRange e.ramp.value.toInt)
    (hdecay : e.state = .decay → Fits e.ramp.phase (remainLen p.minRecompLen e.ramp.phase e.decLen))
    (hadjust : e.state = .sustainAdjust → Fits e.ramp.phase p.minRecompLen) :
    ∃ st r, envSusAct p e = .next { e with state := st, ramp := r } ∧ e.Resustains p st r := by
  obtain ⟨st, ramp, _⟩ := e
  cases st with
  | idle | attack | release => exact ⟨_, _, rfl, rfl, rfl⟩
  | decay =>
    obtain ⟨r, hr, hramped⟩ := envRampTo_of_fits hv (fx_bounds _) (hdecay rfl)
    exact ⟨_, r, hr, rfl, hramped⟩
  | sustain =>
    obtain ⟨r, hr, hentered⟩ := enterRamp_entered .sustainAdjust hv (fx_bounds _) hp.1 hp.2.1
    exact ⟨_, r, hr, rfl, hentered⟩
  | sustainAdjust =>
    obtain ⟨r, hr, hramped⟩ := envRampTo_of_fits hv (fx_bounds _) (hadjust rfl)
    exact ⟨_, r, hr, rfl, hramped⟩

/-- Settles O40: the old level is no change; a new one is stored and acts by state. -/
theorem sustainLevelSetter : Obligations.SustainLevelSetter := by
  intro s v hinv hdecay hadjust
  by_cases hold : levelOf v = s.env.susLev.toNat
  · have hrun : exec (.envSus v) s = .next (acknowledged s) := if_pos (levelOperand_of_levelOf hold)
    exact ⟨s.env.susLev, s.env.state, s.env.ramp, hrun, hold.symm, by rw [if_pos hold]; exact ⟨rfl, rfl⟩⟩
  · have hnew : levelOperand v ≠ s.env.susLev := fun h => hold (by rw [levelOf_eq, h])
    have hv := EnvInv.inRange hinv.2.1
    rw [remainTicks_eq] at hdecay
    obtain ⟨st, r, hact, hres⟩ :=
      envSusAct_completes (e := { s.env with susLev := levelOperand v }) hinv.1 hv (hdecay hold) (hadjust hold)
    refine ⟨_, st, r, ?_, (levelOf_eq v).symm, ?_⟩
    · rw [exec, execEnvSus, if_neg hnew, hact]
      rfl
    · rw [if_neg hold, remainTicks_eq, levelOf_eq, levelFx_eq]
      exact hres

end Sys2Proof.Machine
end

section
/-! The transition table of the envelope (R120): the state after each operation, and the events. -/

namespace Sys2Proof.Machine

open Claims

/-- A hold state has no exit: it "leaves" for itself, with no event. -/
theorem Env.exit_of_hold {e : Env} (hst : e.state.isRamp = false) : e.exitState = e.state ∧ e.exitEvent = none := by
  rw [Env.exitState, Env.exitEvent]
  cases h : e.state with
  | idle | sustain => exact ⟨rfl, rfl⟩
  | attack | decay | sustainAdjust | release => simp [h, EnvState.isRamp] at hst

/-- At the end of its ramp the envelope exits, and before it nothing happens (R120). -/
theorem envTransition_exits {p : Params} {e e' : Env} {ev : Option Event} (h : envTransition p e = .next (e', ev)) :
    e'.state = (if e.ramp.len.toNat ≤ e.ramp.phase.toNat then e.exitState else e.state) ∧
      ev = if e.ramp.len.toNat ≤ e.ramp.phase.toNat then e.exitEvent else none := by
  by_cases hend : e.ramp.len.toNat ≤ e.ramp.phase.toNat
  · rw [if_pos hend, if_pos hend]
    cases hst : e.state.isRamp with
    | false =>
      rw [envTransition_of_hold p hst] at h
      cases h
      obtain ⟨hstate, hevent⟩ := Env.exit_of_hold hst
      exact ⟨hstate.symm, hevent.symm⟩
    | true =>
      rw [envTransition_atEnd p hst hend] at h
      obtain ⟨e₁, hent, h₁⟩ := andThen_eq_next.mp h
      cases h₁
      obtain ⟨r, rfl⟩ := enterEnv_eq_next hent
      exact ⟨rfl, rfl⟩
  · rw [envTransition_of_lt p (Nat.not_le.mp hend)] at h
    cases h
    rw [if_neg hend, if_neg hend]
    exact ⟨rfl, rfl⟩

/-- The state and the event of a render are those of its transition (R122). -/
theorem execEnvRender_exits {s t : State} (h : execEnvRender s = .next t) :
    t.env.state =
        (if s.env.ramp.len.toNat ≤ s.env.ramp.phase.toNat then s.env.exitState else s.env.state) ∧
      t.evt = if s.env.ramp.len.toNat ≤ s.env.ramp.phase.toNat then s.env.exitEvent else none := by
  obtain ⟨e₁, e₂, ev, htr, hadv, rfl⟩ := execEnvRender_eq_next h
  have hkeep : e₂.state = e₁.state := by
    obtain ⟨-, r, -, rfl⟩ | ⟨-, rfl⟩ := envAdvance_eq_next hadv
    · rfl
    · rfl
  obtain ⟨hstate, hevent⟩ := envTransition_exits htr
  exact ⟨hkeep.trans hstate, hevent⟩

theorem execEnvGate_state {s t : State} {b : Bool} (h : execEnvGate b s = .next t) :
    t.env.state = if b then .attack else .release := by
  obtain ⟨e, hent, hdone⟩ := andThen_eq_next.mp h
  obtain ⟨r, rfl⟩ := enterEnv_eq_next hent
  rw [envDone_eq_next.mp hdone]
  rfl

/-- No length setter writes `state` (R123, R124, R126). -/
theorem envLengthSetter_state {c : Prop} [Decidable c] {s t : State} {e : Env} {st : EnvState} {tgt : Int} {l : Length}
    (he : e.state = s.env.state)
    (h : (if c then returnOk s 0 none else andThen (envRecompute s.params e st tgt l) (envDone s)) = .next t) :
    t.env.state = s.env.state := by
  obtain ht | ht | ⟨-, r, ht, -, -⟩ := envLengthSetter_frame h
  · rw [ht]
  · rw [ht, he]
  · rw [ht]
    exact he

/-- A new sustain level takes Sustain to SustainAdjust and leaves every other state (R125). -/
theorem envSusAct_state {p : Params} {e e' : Env} (h : envSusAct p e = .next e') :
    e'.state = if e.state = .sustain then .sustainAdjust else e.state := by
  obtain ⟨st, ramp, _⟩ := e
  cases st with
  | idle | attack | release =>
    obtain rfl := Host.Outcome.next.inj h
    rfl
  | decay | sustainAdjust =>
    obtain ⟨r, -, rfl⟩ := envRampTo_eq_next h
    rfl
  | sustain =>
    obtain ⟨r, -, rfl⟩ := enterRamp_eq_next h
    rfl

theorem execEnvSus_state {s t : State} {v : Int} (h : execEnvSus v s = .next t) :
    t.env.state =
      if s.env.state = .sustain ∧ levelOf v ≠ s.env.susLev.toNat then .sustainAdjust else s.env.state := by
  obtain ⟨hold, rfl⟩ | ⟨hnew, e, hact, hdone⟩ := setter_eq_next h
  · rw [if_neg fun hc => hc.2 (by rw [levelOf_eq, hold])]
    rfl
  · have hne : levelOf v ≠ s.env.susLev.toNat := fun hlev => hnew (levelOperand_of_levelOf hlev)
    have hstate : t.env.state = e.state := by rw [envDone_eq_next.mp hdone]; rfl
    rw [hstate, envSusAct_state hact]
    simp only [hne, ne_eq, not_false_eq_true, and_true]

theorem returnOk_evt {s t : State} {v : OutWord} {ev : Option Event} (h : returnOk s v ev = .next t) : t.evt = ev := by
  rw [returnOk_eq_next.mp h, State.answer_evt]

/-- A setter with a compare fires nothing in both branches (R109). -/
theorem setter_evt {α : Type} {c : Prop} [Decidable c] {s t : State} {x : Res α} {put : State → α → State}
    (h : (if c then returnOk s 0 none else andThen x fun a => returnOk (put s a) 0 none) = .next t) : t.evt = none := by
  obtain ⟨-, rfl⟩ | ⟨-, a, -, ha⟩ := setter_eq_next h
  · rfl
  · exact returnOk_evt ha

/-- Of the envelope's operations only the render fires events (R215). -/
theorem exec_env_evt_of_ne_render {i : Instr} {s t : State} (hi : i.unit = .env) (hne : i ≠ .envRender)
    (h : exec i s = .next t) : t.evt = none := by
  match i, hi with
  | .envRender, _ => exact absurd rfl hne
  | .envAtk n, _ | .envDec n, _ | .envRel n, _ | .envSus v, _ => exact setter_evt (put := State.withEnv) h
  | .envGate b, _ =>
    obtain ⟨e, -, hdone⟩ := andThen_eq_next.mp h
    exact returnOk_evt hdone
  | .envRetrig b, _ | .envHeod a c, _ | .envHeor a c, _ => exact returnOk_evt h

/-- Settles O19: the state by what each operation can do, and the event of the one operation that fires any. -/
theorem envelopeTransitionTable : Obligations.EnvelopeTransitionTable := by
  intro i s t h
  constructor
  · cases i with
    | envRender => exact (execEnvRender_exits h).1
    | envGate b => cases b <;> exact execEnvGate_state h
    | envSus v => exact execEnvSus_state h
    | envAtk n => exact envLengthSetter_state (e := { s.env with atkLen := lenOperand n }) rfl h
    | envDec n => exact envLengthSetter_state (e := { s.env with decLen := lenOperand n }) rfl h
    | envRel n => exact envLengthSetter_state (e := { s.env with relLen := lenOperand n }) rfl h
    | envRetrig | envHeod | envHeor => rw [envDone_eq_next.mp h]; rfl
    | lfoRender | lfoPeriod | lfoDuty | seqRender | seqSteplen | seqGlide | seqAppend | seqAppendl | seqSetstep
    | seqSetstepl | seqClear | seqGate | seqReset | seqHeos | seqNsteps | seqUniform =>
      exact congrArg Env.state (exec_env_of_other h nofun)
  · intro hunit
    rw [unitOf_eq_unit] at hunit
    by_cases hrender : i = .envRender
    · subst hrender
      rw [(execEnvRender_exits h).2, Env.exitEvent]
      simp only [true_and]
      cases s.env.state <;> rfl
    · rw [if_neg fun hc => hrender hc.1]
      exact exec_env_evt_of_ne_render hunit hrender h

end Sys2Proof.Machine
end

section
/-! The oscillator (R150 to R153): the flips at the end of a ramp, what `LFO.RENDER` leaves before and at that end, and
what a new period or duty makes of the derived lengths and the running ramp. -/

namespace Sys2Proof.Machine

open Claims

/-! The state after each operation (R150). -/

/-- A render flips at the end of the ramp and only there (R151). -/
theorem execLfoRender_state {s t : State} (h : execLfoRender s = .next t) :
    t.lfo.state = if s.lfo.ramp.len.toNat ≤ s.lfo.ramp.phase.toNat then s.lfo.state.flip else s.lfo.state := by
  obtain ⟨l, r, ⟨hend, hflip⟩ | ⟨hend, rfl⟩, -, rfl⟩ := execLfoRender_eq_next h
  · obtain ⟨r', -, rfl⟩ := lfoFlip_eq_next hflip
    exact (if_pos (of_decide_eq_true hend)).symm
  · exact (if_neg (of_decide_eq_false hend)).symm

/-- Neither setter writes `state` (R152, R153). -/
theorem lfoSetter_state {c : Prop} [Decidable c] {s t : State} {l : Lfo} (hl : l.state = s.lfo.state)
    (h : (if c then returnOk s 0 none else andThen (lfoRecompute s.params l) (lfoDone s)) = .next t) :
    t.lfo.state = s.lfo.state := by
  obtain hkeep | hnext := lfoSetter_eq_next h
  · rw [hkeep]
  · obtain ⟨a, b, r, hnew, -, -⟩ := lfoRecompute_frame hnext
    rw [hnew, ← hl]

theorem exec_lfo_state_of_ne_render {i : Instr} {s t : State} (hne : i ≠ .lfoRender) (h : exec i s = .next t) :
    t.lfo.state = s.lfo.state := by
  by_cases hi : i.unit = .lfo
  case neg => rw [exec_lfo_of_other h hi]
  match i, hi with
  | .lfoRender, _ => exact absurd rfl hne
  | .lfoPeriod n, _ => exact lfoSetter_state (l := { s.lfo with period := lenOperand n }) rfl h
  | .lfoDuty d, _ => exact lfoSetter_state (l := { s.lfo with duty := dutyOperand d }) rfl h

/-- Settles O20: the render flips at the end of a ramp, and no other operation writes the state. -/
theorem oscillatorFlipsOnlyAtTheEndOfARamp : Obligations.OscillatorFlipsOnlyAtTheEndOfARamp := by
  intro i s t h
  by_cases hrender : i = .lfoRender
  · subst hrender
    rw [execLfoRender_state h]
    simp only [true_and]
    rfl
  · rw [if_neg fun hc => hrender hc.1]
    exact exec_lfo_state_of_ne_render hrender h

/-! The render (R108, R151). -/

theorem LfoInv.inRange {l : Lfo} (h : LfoInv l) : InRange l.ramp.value.toInt := by
  obtain ⟨-, ⟨-, -, hv, -, -⟩, -, -⟩ := h
  exact hv

/-- `s` after a render of the oscillator that leaves state `st` and ramp `r`. -/
def State.lfoRendered (s : State) (st : LfoState) (r : Ramp) : State :=
  { s with lfo := { s.lfo with state := st, ramp := r, out := clampq r.value }
           rsp := okWith (clampq r.value)
           evt := none }

theorem execLfoRender_within {s : State} (hinv : LfoInv s.lfo)
    (hlt : s.lfo.ramp.phase.toNat < s.lfo.ramp.len.toNat) :
    ∃ r, exec .lfoRender s = .next (s.lfoRendered s.lfo.state r) ∧ Ticked s.lfo.ramp r := by
  obtain ⟨-, hrun, -, -⟩ := hinv
  obtain ⟨r, hacc, -⟩ := tick_completes hrun hlt
  refine ⟨r, ?_, accumulate_ticked hacc⟩
  rw [exec, execLfoRender, not_atEnd hlt, if_neg Bool.false_ne_true, andThen_next, hacc]
  rfl

theorem execLfoRender_atEnd {s : State} (hinv : LfoInv s.lfo)
    (hend : s.lfo.ramp.len.toNat ≤ s.lfo.ramp.phase.toNat) :
    ∃ r, exec .lfoRender s = .next (s.lfoRendered s.lfo.state.flip r) ∧
      FirstTick s.lfo.ramp r (lfoTarget s.lfo.state.flip)
        (entryLen (lfoCurLen { s.lfo with state := s.lfo.state.flip })) := by
  obtain ⟨r0, r, hent, hacc, -, hsl, hval, hph, hlen⟩ :=
    entry_first_tick hinv.inRange (lfoTarget_inRange s.lfo.state.flip)
      (one_le_entryLen (lfoCurLen { s.lfo with state := s.lfo.state.flip })) (entryLen_le _)
  refine ⟨r, ?_, by rw [hsl, tdiv_eq], hval, hph, by rw [hlen]⟩
  rw [exec, execLfoRender, if_pos (atEnd_of_le hend), lfoFlip, hent, andThen_next, andThen_next, hacc]
  rfl

/-- Settles O44: a flip with the first tick of the ramp entered, or a tick of the running ramp; both complete. -/
theorem oscillatorRender : Obligations.OscillatorRender := by
  intro s hinv
  obtain ⟨-, -, hlfo, -⟩ := hinv
  by_cases hend : s.lfo.ramp.len.toNat ≤ s.lfo.ramp.phase.toNat
  · obtain ⟨r, hrun, hfirst⟩ := execLfoRender_atEnd hlfo hend
    refine ⟨_, r, _, hrun, clampq_quantized _, ?_⟩
    rw [if_pos hend]
    cases hst : s.lfo.state <;> rw [hst] at hfirst
    case incline => exact ⟨rfl, by rwa [entryTicks_eq, ← fx_levMin]⟩
    case decline => exact ⟨rfl, by rwa [entryTicks_eq, ← fx_levMax]⟩
  · obtain ⟨r, hrun, htick⟩ := execLfoRender_within hlfo (Nat.not_le.mp hend)
    exact ⟨_, r, _, hrun, clampq_quantized _, by rw [if_neg hend]; exact ⟨rfl, htick⟩⟩

/-! The setters (R152, R153). -/

theorem inclineLen_cast (p : Length) (d : Duty) : ((inclineLen p d).toNat : Int) = p.toNat * d.val / 65536 := by
  rw [inclineLen_toNat]
  push_cast
  rfl

theorem declineLen_cast (p : Length) (d : Duty) :
    ((declineLen p d).toNat : Int) = p.toNat * (65536 - d.val) / 65536 := by
  have hd : d.val ≤ 65536 := Nat.lt_succ_iff.mp d.isLt
  rw [declineLen_toNat]
  push_cast [Nat.cast_sub hd]
  rfl

/-- The oscillator with both derived lengths made right for its `period` and `duty` (R35). -/
def Lfo.rederived (l : Lfo) : Lfo :=
  { l with lenIncline := inclineLen l.period l.duty, lenDecline := declineLen l.period l.duty }

/-- `r` is the ramp of `l` re-aimed at the target of the running state over the rest of its length (R104, R152). -/
def Lfo.Reaims (p : Params) (l : Lfo) (r : Ramp) : Prop :=
  match l.state with
  | .incline => RampedTo l.ramp r 267386880 (remainTicks p l.ramp.phase l.lenIncline.toNat)
  | .decline => RampedTo l.ramp r 0 (remainTicks p l.ramp.phase l.lenDecline.toNat)

theorem Lfo.reaims_iff {p : Params} {l : Lfo} {r : Ramp} :
    l.Reaims p r ↔ RampedTo l.ramp r (lfoTarget l.state) (remainTicks p l.ramp.phase (lfoCurLen l).toNat) := by
  rw [Lfo.Reaims, lfoCurLen]
  cases l.state with
  | incline => rw [lfoTarget, fx_levMax]
  | decline => rw [lfoTarget, fx_levMin]

/-- The length of the running state after a recomputation, in numbers (R35, R150). -/
theorem lfoCurLen_rederived (l : Lfo) :
    ((lfoCurLen l.rederived).toNat : Int) =
      match l.state with
      | .incline => l.period.toNat * l.duty.val / 65536
      | .decline => l.period.toNat * (65536 - l.duty.val) / 65536 := by
  rw [lfoCurLen, Lfo.rederived]
  cases l.state with
  | incline => exact inclineLen_cast _ _
  | decline => exact declineLen_cast _ _

/-- A recomputation completes when the new end fits `len`, and re-aims the ramp by the new lengths (R112, R152). -/
theorem lfoRecompute_of_fits {p : Params} {l : Lfo} (hv : InRange l.ramp.value.toInt)
    (hfit : Fits l.ramp.phase (remainTicks p l.ramp.phase (lfoCurLen l.rederived).toNat)) :
    ∃ r, lfoRecompute p l = .next { l.rederived with ramp := r } ∧ l.rederived.Reaims p r := by
  simp only [Lfo.reaims_iff]
  rw [remainTicks_eq] at hfit ⊢
  obtain ⟨r, hr, hramped⟩ := rampTo_of_fits hv (lfoTarget_inRange l.state) hfit
  exact ⟨r, andThen_eq_next.mpr ⟨r, hr, rfl⟩, hramped⟩

/-- Settles O45: the compare finds a new period, and the recomputation with it completes. -/
theorem periodSetter : Obligations.PeriodSetter := by
  intro s n hinv hne hfit
  obtain ⟨-, -, hlfo, -⟩ := hinv
  have hnew : lenOperand n ≠ s.lfo.period := fun h => hne (by rw [lenOf_eq, h])
  rw [lenOf_eq] at hfit ⊢
  obtain ⟨r, hrec, hreaims⟩ := lfoRecompute_of_fits (l := { s.lfo with period := lenOperand n }) hlfo.inRange
    (hfit _ (lfoCurLen_rederived _))
  refine ⟨_, _, _, r, ?_, rfl, inclineLen_cast _ _, declineLen_cast _ _, hreaims⟩
  rw [exec, execLfoPeriod, if_neg hnew, hrec]
  rfl

/-- Settles O46: the compare finds a new duty, and the recomputation with it completes. -/
theorem dutySetter : Obligations.DutySetter := by
  intro s d hinv hne hfit
  obtain ⟨-, -, hlfo, -⟩ := hinv
  have hnew : dutyOperand d ≠ s.lfo.duty := fun h => hne (by rw [dutyOf_eq, h])
  rw [dutyOf_eq] at hfit ⊢
  obtain ⟨r, hrec, hreaims⟩ := lfoRecompute_of_fits (l := { s.lfo with duty := dutyOperand d }) hlfo.inRange
    (hfit _ (lfoCurLen_rederived _))
  refine ⟨_, _, _, r, ?_, rfl, inclineLen_cast _ _, declineLen_cast _ _, hreaims⟩
  rw [exec, execLfoDuty, if_neg hnew, hrec]
  rfl

end Sys2Proof.Machine
end

section
/-! The sequencer (R170 to R184): `SEQ.RENDER` while it holds, within a step and at an advance, what the two rewrites
make of an entry of the sequence and of the running step, and the operations that are one register write. -/

namespace Sys2Proof.Machine

open Claims

/-! What the invariant gives. -/

theorem SeqInv.inRange {p : Params} {q : Seq} (h : SeqInv p q) : InRange q.ramp.value.toInt := by
  obtain ⟨-, -, -, -, -, hv, -, -⟩ := h
  exact hv

/-- An entry of the sequence exists and has been written (R50, R67). -/
theorem SeqInv.entry {p : Params} {q : Seq} {i : Nat} (h : SeqInv p q) (hi : i < q.nSteps.toNat) :
    i < p.seqCap ∧ ∃ x, Memory.read q.steps i = some x := by
  obtain ⟨-, ⟨-, -, hcap, hwritten⟩, -⟩ := h
  exact ⟨hi.trans_le hcap, Option.isSome_iff_exists.mp (hwritten i hi)⟩

/-- The tick of a render completes before the end of the step (R172). -/
theorem SeqInv.tick {p : Params} {q : Seq} (h : SeqInv p q) (hlt : q.ramp.phase.toNat < q.ramp.len.toNat) :
    ∃ q', seqTick q = .next q' := by
  obtain ⟨-, -, -, -, -, hv, hgl, -⟩ := h
  exact seqTick_completes hv hgl hlt

/-! The render (R170 to R172). -/

theorem Seq.runs_iff {q : Seq} : q.runs = true ↔ q.gated = true ∧ 0 < q.nSteps.toNat := by
  simp [Seq.runs]

theorem seqWraps_iff {q : Seq} : seqWraps q = true ↔ q.rstPending = true ∨ q.nSteps.toNat ≤ q.stepIdx.toNat + 1 := by
  simp [seqWraps]

/-- A render advances on a pending reset and at the end of the step (R172). -/
theorem seqRender_advances_iff {q : Seq} :
    (q.rstPending || q.ramp.atEnd) = true ↔ q.rstPending = true ∨ q.ramp.len.toNat ≤ q.ramp.phase.toNat := by
  simp [Ramp.atEnd]

/-- Settles O47: without a gate or without steps the sequencer does not run, so the render only reads `out`. -/
theorem sequencerRenderHoldsWhenUngatedOrEmpty : Obligations.SequencerRenderHoldsWhenUngatedOrEmpty := by
  intro s hstill
  have hrun : ¬ s.seq.runs = true := by
    rw [Seq.runs_iff]
    rintro ⟨hgate, hn⟩
    obtain hgate' | hn' := hstill
    · exact absurd (hgate.symm.trans hgate') (by decide)
    · exact absurd hn' hn.ne'
  exact if_neg hrun

/-- Settles O48: no advance, and one tick before the end of the step, which completes. -/
theorem sequencerRenderWithinAStep : Obligations.SequencerRenderWithinAStep := by
  intro s hinv hgate hn hpend hlt
  obtain ⟨-, -, -, hseq⟩ := hinv
  have hstay : ¬ (s.seq.rstPending || s.seq.ramp.atEnd) = true := by
    rw [seqRender_advances_iff, hpend]
    exact not_or.mpr ⟨Bool.false_ne_true, Nat.not_le.mpr hlt⟩
  obtain ⟨q, htick⟩ := hseq.tick hlt
  obtain ⟨v, ph, rfl, hph, hval⟩ := seqTick_eq_next htick
  refine ⟨v, ph, clampq v, ?_, by rw [hval, levelFx_eq], hph, clampq_quantized v⟩
  rw [exec, execSeqRender, if_pos (Seq.runs_iff.mpr ⟨hgate, hn⟩), if_neg hstay, andThen_next, htick]
  rfl

/-- An advance completes: the entry it reads has been written, and its glide starts from `phase = 0` (R67, R170). -/
theorem seqAdvance_completes {p : Params} {q : Seq} (hinv : SeqInv p q) (hn : 0 < q.nSteps.toNat) :
    ∃ q' ev, seqAdvance p q = .next (q', ev) := by
  obtain ⟨hcap, x, hx⟩ := hinv.entry (seqNextIdx_lt hn)
  have hroom : 0 + entryLen q.glidelen < counterSize :=
    (Nat.zero_add _).trans_lt ((entryLen_le _).trans_lt (by decide))
  rw [seqAdvance, Memory.load_eq_next.mpr ⟨hcap, hx⟩, andThen_next]
  obtain ⟨q', hq'⟩ := glide_completes (q := { q with
    stepIdx := BitVec.ofNat 8 (seqNextIdx q)
    rstPending := false
    ramp := { q.ramp with
      phase := 0
      len := BitVec.ofNat 32 (entryLen (if q.uniformStep then q.steplen else x.len)) }
    tgt := x.val }) hinv.inRange hroom
  exact ⟨q', _, by rw [hq', andThen_next]⟩

/-- `len` after an advance: the entry length, at least one tick, fits its register (R103, R170). -/
theorem ofNat_entryLen_toNat (l : Length) : (BitVec.ofNat 32 (entryLen l) : Counter).toNat = entryLen l :=
  ofNat_toNat_counter ((entryLen_le l).trans_lt (by decide))

/-- The index of a step of the sequence fits `step_idx` (R13, R41). -/
theorem ofNat_seqNextIdx_toNat {p : Params} {q : Seq} (hp : p.Legal) (hlt : seqNextIdx q < p.seqCap) :
    (BitVec.ofNat 8 (seqNextIdx q)).toNat = seqNextIdx q := by
  obtain ⟨-, -, -, hcap⟩ := hp
  exact (BitVec.toNat_ofNat _ _).trans (Nat.mod_eq_of_lt (hlt.trans_le hcap))

/-- Settles O49: the advance and then the tick complete; the tick is the first of a glide of at least one tick, so it
accumulates. -/
theorem sequencerRenderAdvances : Obligations.SequencerRenderAdvances := by
  intro s hinv hgate hn hleave
  obtain ⟨hp, -, -, hseq⟩ := hinv
  obtain ⟨q₁, ev, hadv⟩ := seqAdvance_completes hseq hn
  obtain ⟨hseq₁, hlt⟩ := seqAdvance_inv hp hseq hn hadv
  obtain ⟨q₂, htick⟩ := hseq₁.tick hlt
  have hrun : exec .seqRender s = .next ((s.withSeq q₂).answer .ok q₂.out ev) := by
    rw [exec, execSeqRender, if_pos (Seq.runs_iff.mpr ⟨hgate, hn⟩), if_pos (seqRender_advances_iff.mpr hleave), hadv,
      andThen_next, htick, andThen_next]
    rfl
  obtain ⟨x, slope, glEnd, hx, hcap, hslope, hend, rfl, rfl⟩ := seqAdvance_eq_next hadv
  obtain ⟨v, ph, rfl, hph, hval⟩ := seqTick_eq_next htick
  have hidx := ofNat_seqNextIdx_toNat hp hcap
  have hglide : 0 < glEnd.toNat := hend ▸ one_le_entryLen _
  refine ⟨BitVec.ofNat 8 (seqNextIdx s.seq), x, _, glEnd, clampq v, _, hrun, by rw [hidx, hx],
    ?_, ?_, ?_, ?_, ?_, ?_, ?_⟩
  · by_cases hw : seqWraps s.seq = true
    · rw [if_pos (seqWraps_iff.mp hw), hidx, seqNextIdx, if_pos hw, if_pos hw]
      exact ⟨rfl, rfl⟩
    · rw [if_neg (mt seqWraps_iff.mpr hw), hidx, seqNextIdx, if_neg hw, if_neg hw]
      exact ⟨rfl, rfl⟩
  · rw [hslope, tdiv_eq, levelFx_eq, entryTicks_eq]
  · rw [hend, entryTicks_eq]
  · exact hval.trans (if_pos hglide)
  · exact hph
  · rw [ofNat_entryLen_toNat, ← entryTicks_eq]
    cases s.seq.uniformStep <;> rfl
  · exact clampq_quantized v

/-! The rewrites (R171, R177, R178). -/

/-- `m'` is `m` with entry `i` holding `y` (R62). -/
def Memory.Puts (m m' : Memory) (i : Nat) (y : Step) : Prop :=
  ∀ a, Memory.read m' a = if a = i then some y else Memory.read m a

theorem Memory.puts_write (m : Memory) (i : Nat) (y : Step) : m.Puts (Memory.write m i y) i y :=
  fun a => Memory.read_write m i a y

/-- A store is itself with the entry it already holds. -/
theorem Memory.puts_of_read {m : Memory} {i : Nat} {y : Step} (h : Memory.read m i = some y) : m.Puts m i y := by
  intro a
  split_ifs with ha
  · rw [ha, h]
  · rfl

theorem Memory.Puts.read {m m' : Memory} {i : Nat} {y : Step} (h : m.Puts m' i y) : Memory.read m' i = some y :=
  (h i).trans (if_pos rfl)

/-- Of two rewrites of an entry the second stands. -/
theorem Memory.Puts.trans {m m' m'' : Memory} {i : Nat} {y z : Step} (h : m.Puts m' i y) (h' : m'.Puts m'' i z) :
    m.Puts m'' i z := by
  intro a
  rw [h' a]
  split_ifs with ha
  · rfl
  · exact (h a).trans (if_neg ha)

/-- The glide after the value of entry `i` went from `old` to `new`: re-aimed from the current phase if that changed the
active step, else as before (R171, R177). -/
def Seq.Reglides (q : Seq) (i : Nat) (old new tg : Level) (sl : Acc) (ge : Counter) : Prop :=
  if new ≠ old ∧ i = q.stepIdx.toNat ∧ q.rstPending = false then
    tg = new ∧ sl.toInt = Int.tdiv (levelFx new.toNat - q.ramp.value.toInt) (entryTicks q.glidelen.toNat) ∧
      (ge.toNat : Int) = q.ramp.phase.toNat + entryTicks q.glidelen.toNat
  else tg = q.tgt ∧ sl = q.ramp.slope ∧ ge = q.glEnd

/-- The end `ln` of the running step after the length of entry `i` went from `old` to `new`: moved if that changed the
active step of a sequence that is not uniform, else as before (R104, R178). -/
def Seq.Relengthens (p : Params) (q : Seq) (i : Nat) (old new : Length) (ln : Counter) : Prop :=
  if new ≠ old ∧ i = q.stepIdx.toNat ∧ q.rstPending = false ∧ q.uniformStep = false then
    (ln.toNat : Int) = q.ramp.phase.toNat + remainTicks p q.ramp.phase new.toNat
  else ln = q.ramp.len

theorem fits_iff {ph : Counter} {n : Nat} : Fits ph n ↔ ph.toNat + n < counterSize := by
  unfold Fits counterSize
  omega

/-- The value part of a rewrite completes when the end of a new glide fits `gl_end` (R112, R177). -/
theorem seqSetVal_of_fits {p : Params} {q : Seq} {i : Nat} {x : Step} {v : Level} (hv : InRange q.ramp.value.toInt)
    (hi : i < p.seqCap) (hx : Memory.read q.steps i = some x)
    (hfit : i = q.stepIdx.toNat → q.rstPending = false → v ≠ x.val → Fits q.ramp.phase (entryTicks q.glidelen.toNat)) :
    ∃ m tg sl ge,
      seqSetVal p q i x v =
        .next { q with steps := m, tgt := tg, ramp := { q.ramp with slope := sl }, glEnd := ge } ∧
      q.steps.Puts m i { x with val := v } ∧ q.Reglides i x.val v tg sl ge := by
  rw [seqSetVal]
  by_cases hnew : v = x.val
  · subst hnew
    exact ⟨_, _, _, _, if_pos rfl, Memory.puts_of_read hx, (if_neg (by simp)).mpr ⟨rfl, rfl, rfl⟩⟩
  rw [if_neg hnew, Memory.store_eq_next.mpr ⟨hi, rfl⟩, andThen_next]
  by_cases hact : q.isActive i = true
  · obtain ⟨hidx, hpend⟩ := Seq.isActive_iff.mp hact
    have hroom := hfit hidx hpend hnew
    rw [entryTicks_eq, fits_iff] at hroom
    obtain ⟨q', hq'⟩ := glide_completes
      (q := { q with steps := Memory.write q.steps i { x with val := v }, tgt := v }) hv hroom
    obtain ⟨sl, ge, rfl, hsl, hge⟩ := glide_eq_next hq'
    refine ⟨_, v, sl, ge, by rw [if_pos hact, hq'], Memory.puts_write _ _ _, ?_⟩
    rw [Seq.Reglides, if_pos ⟨hnew, hidx, hpend⟩, levelFx_eq, entryTicks_eq, ← tdiv_eq]
    exact ⟨rfl, hsl, by rw [hge, Nat.cast_add]⟩
  · refine ⟨_, _, _, _, if_neg hact, Memory.puts_write _ _ _, ?_⟩
    rw [Seq.Reglides, if_neg fun h => hact (Seq.isActive_iff.mpr h.2)]
    exact ⟨rfl, rfl, rfl⟩

/-- The length part of a rewrite completes when the new end of the running step fits `len` (R112, R178). -/
theorem seqSetLen_of_fits {p : Params} {q : Seq} {i : Nat} {x : Step} {l : Length} (hi : i < p.seqCap)
    (hx : Memory.read q.steps i = some x)
    (hfit : i = q.stepIdx.toNat → q.rstPending = false → q.uniformStep = false → l ≠ x.len →
      Fits q.ramp.phase (remainTicks p q.ramp.phase l.toNat)) :
    ∃ m ln, seqSetLen p q i x l = .next { q with steps := m, ramp := { q.ramp with len := ln } } ∧
      q.steps.Puts m i { x with len := l } ∧ q.Relengthens p i x.len l ln := by
  rw [seqSetLen]
  by_cases hnew : l = x.len
  · subst hnew
    exact ⟨_, _, if_pos rfl, Memory.puts_of_read hx, (if_neg (by simp)).mpr rfl⟩
  rw [if_neg hnew, Memory.store_eq_next.mpr ⟨hi, rfl⟩, andThen_next]
  have hmoves : (q.isActive i && !q.uniformStep) = true ↔
      i = q.stepIdx.toNat ∧ q.rstPending = false ∧ q.uniformStep = false := by
    rw [Bool.and_eq_true, Seq.isActive_iff, and_assoc, Bool.not_eq_true']
  by_cases hact : (q.isActive i && !q.uniformStep) = true
  · obtain ⟨hidx, hpend, huni⟩ := hmoves.mp hact
    have hroom := hfit hidx hpend huni hnew
    rw [remainTicks_eq, fits_iff] at hroom
    refine ⟨_, _, by rw [if_pos hact, counterReg_next hroom, andThen_next], Memory.puts_write _ _ _, ?_⟩
    rw [Seq.Relengthens, if_pos ⟨hnew, hidx, hpend, huni⟩, ofNat_toNat_counter hroom, remainTicks_eq, Nat.cast_add]
  · refine ⟨_, _, if_neg hact, Memory.puts_write _ _ _, ?_⟩
    rw [Seq.Relengthens, if_neg fun h => hact (hmoves.mpr h.2)]

/-- Two registers of one width that differ hold different numbers. -/
theorem some_toNat_ne {w : Nat} {a b : BitVec w} (h : a ≠ b) : some (b.toNat : Int) ≠ some (a.toNat : Int) :=
  fun hab => h (BitVec.eq_of_toNat_eq (Int.ofNat.inj (Option.some.inj hab)).symm)

/-- Settles O53: the entry is read, and the value part of the rewrite completes. -/
theorem rewriteOfAStepValue : Obligations.RewriteOfAStepValue := by
  intro s i v hinv hi hfit
  obtain ⟨-, -, -, hseq⟩ := hinv
  obtain ⟨hcap, x, hx⟩ := hseq.entry hi
  rw [levelOf_eq] at hfit ⊢
  obtain ⟨m, tg, sl, ge, hset, hputs, hglide⟩ := seqSetVal_of_fits (v := levelOperand v) hseq.inRange hcap hx
    fun hidx hpend hnew => hfit hidx hpend (by rw [hx]; exact some_toNat_ne hnew)
  refine ⟨x, { x with val := levelOperand v }, m, tg, sl, ge, ?_, hx, rfl, rfl, hputs, hglide⟩
  rw [exec, execSeqSetstep, if_pos (Seq.hasStep_iff.mpr hi), Memory.load_eq_next.mpr ⟨hcap, hx⟩, andThen_next, hset]
  rfl

/-- Settles O54: the value part completes, and then the length part on what it left, whose active step and phase are
those of the start. -/
theorem rewriteOfAStepValueAndLength : Obligations.RewriteOfAStepValueAndLength := by
  intro s i v n hinv hi hfitVal hfitLen
  obtain ⟨-, -, -, hseq⟩ := hinv
  obtain ⟨hcap, x, hx⟩ := hseq.entry hi
  rw [levelOf_eq] at hfitVal ⊢
  rw [lenOf_eq] at hfitLen ⊢
  obtain ⟨m₁, tg, sl, ge, hval, hputs₁, hglide⟩ := seqSetVal_of_fits (v := levelOperand v) hseq.inRange hcap hx
    fun hidx hpend hnew => hfitVal hidx hpend (by rw [hx]; exact some_toNat_ne hnew)
  obtain ⟨m₂, ln, hlen, hputs₂, hend⟩ := seqSetLen_of_fits (p := s.params) (l := lenOperand n)
    (q := { s.seq with steps := m₁, tgt := tg, ramp := { s.seq.ramp with slope := sl }, glEnd := ge })
    hcap hputs₁.read
    fun hidx hpend huni hnew => hfitLen hidx hpend huni (by rw [hx]; exact some_toNat_ne hnew)
  refine ⟨x, ⟨levelOperand v, lenOperand n⟩, m₂, tg, sl, ln, ge, ?_, hx, rfl, rfl, hputs₁.trans hputs₂, hglide, hend⟩
  rw [exec, execSeqSetstepl, if_pos (Seq.hasStep_iff.mpr hi), Memory.load_eq_next.mpr ⟨hcap, hx⟩, andThen_next, hval,
    andThen_next, hlen]
  rfl

/-! The operations that write one register, or none (R173, R174, R179 to R184). -/

/-- Settles O50: each is one write of the clamped operand. -/
theorem sequencerLengthSetters : Obligations.SequencerLengthSetters :=
  fun _ n => ⟨⟨lenOperand n, rfl, (lenOf_eq n).symm⟩, ⟨lenOperand n, rfl, (lenOf_eq n).symm⟩⟩

/-- Settles O55: the new state has the step store of the old one. -/
theorem clearEmptiesWithoutErasing : Obligations.ClearEmptiesWithoutErasing := fun _ => rfl

/-- Settles O56: the four operations are one write each. -/
theorem sequencerFlagAndSlotSetters : Obligations.SequencerFlagAndSlotSetters :=
  fun _ _ _ _ => ⟨rfl, rfl, rfl, rfl⟩

/-- Settles O57: the nine bits of `n_steps` fit the sixteen of the response. -/
theorem stepCountIsReturned : Obligations.StepCountIsReturned := fun s =>
  ⟨s.seq.nSteps.zeroExtend 16, rfl, BitVec.toNat_setWidth_of_le (by decide)⟩

end Sys2Proof.Machine
end

section
/-! No operation stops the core (R210, R214): with room in the counters every operation of every unit completes from the
invariant (R112), and so does every step. -/

namespace Sys2Proof.Machine

open Claims

/-! The room: each length a counter is advanced by is at most `LEN_MAX` (R112). -/

section
variable {ph : Counter} (hroom : ph.toNat + lenMax < counterSize)
include hroom

theorem fits_of_room {n : Nat} (hn : n ≤ lenMax) : Fits ph n := by
  rw [fits_iff]
  omega

theorem fits_entryTicks (l : Length) : Fits ph (entryTicks l.toNat) := by
  rw [entryTicks_eq]
  exact fits_of_room hroom (entryLen_le l)

theorem fits_remainTicks {p : Params} (hp : p.Legal) (l : Length) : Fits ph (remainTicks p ph l.toNat) := by
  rw [remainTicks_eq]
  exact fits_of_room hroom (remainLen_le _ _ _ hp.2.1)

theorem fits_remainTicks_lenOf {p : Params} (hp : p.Legal) (n : Int) : Fits ph (remainTicks p ph (lenOf n)) := by
  rw [lenOf_eq]
  exact fits_remainTicks hroom hp _

end

/-! The operations, unit by unit. -/

/-- A setter with a compare completes if its change does (R109). -/
theorem setter_proceeds {α : Type} {c : Prop} [Decidable c] {s : State} {x : Res α} {put : State → α → State}
    (hx : ∃ a, x = .next a) :
    Proceeds (if c then returnOk s 0 none else andThen x fun a => returnOk (put s a) 0 none) := by
  obtain ⟨a, rfl⟩ := hx
  split_ifs
  · exact ⟨_, rfl⟩
  · exact ⟨_, rfl⟩

/-- In a hold state, within a ramp and at its end (R122). -/
theorem exec_envRender_proceeds {s : State} (hinv : Inv s) : Proceeds (exec .envRender s) := by
  cases hst : s.env.state.isRamp with
  | false => exact ⟨_, execEnvRender_of_hold hst⟩
  | true =>
    by_cases hend : s.env.ramp.len.toNat ≤ s.env.ramp.phase.toNat
    · obtain ⟨r, hrun, -⟩ := execEnvRender_atEnd hinv hst hend
      exact ⟨_, hrun⟩
    · obtain ⟨r, hrun, -⟩ := execEnvRender_within hinv hst (Nat.not_le.mp hend)
      exact ⟨_, hrun⟩

theorem envLengthSetter_proceeds {op : Int → Instr} {reg : Env → Length} {put : Env → Length → Ramp → Env}
    {st : EnvState} {target : Env → Int} (h : EnvLengthSetter op reg put st target) {s : State} (hinv : Inv s)
    (hroom : CounterRoom s) (n : Int) : Proceeds (exec (op n) s) := by
  obtain ⟨l, r, hrun, -⟩ := h s n hinv fun _ _ => fits_remainTicks_lenOf hroom.1 hinv.1 n
  exact ⟨_, hrun⟩

theorem exec_env_proceeds {i : Instr} {s : State} (hi : i.unit = .env) (hinv : Inv s) (hroom : CounterRoom s) :
    Proceeds (exec i s) := by
  match i, hi with
  | .envRender, _ => exact exec_envRender_proceeds hinv
  | .envAtk n, _ => exact envLengthSetter_proceeds attackLengthSetter hinv hroom n
  | .envDec n, _ => exact envLengthSetter_proceeds decayLengthSetter hinv hroom n
  | .envRel n, _ => exact envLengthSetter_proceeds releaseLengthSetter hinv hroom n
  | .envSus v, _ =>
    have hp := hinv.1
    obtain ⟨henv, -⟩ := hroom
    obtain ⟨l, st, r, hrun, -⟩ :=
      sustainLevelSetter s v hinv (fun _ _ => fits_remainTicks henv hp _) fun _ _ => fits_of_room henv hp.2.1
    exact ⟨_, hrun⟩
  | .envGate b, _ =>
    obtain ⟨r, hrun, -⟩ := gateEntersAttackOrRelease s b hinv
    exact ⟨_, hrun⟩
  | .envRetrig _, _ | .envHeod _ _, _ | .envHeor _ _, _ => exact ⟨_, rfl⟩

/-- A recomputation completes whatever `period` and `duty` are (R152). -/
theorem lfoRecompute_completes {p : Params} {l : Lfo} (hp : p.Legal) (hv : InRange l.ramp.value.toInt)
    (hroom : l.ramp.phase.toNat + lenMax < counterSize) : ∃ l', lfoRecompute p l = .next l' := by
  obtain ⟨r, hrec, -⟩ := lfoRecompute_of_fits hv (fits_remainTicks hroom hp _)
  exact ⟨_, hrec⟩

theorem exec_lfo_proceeds {i : Instr} {s : State} (hi : i.unit = .lfo) (hinv : Inv s) (hroom : CounterRoom s) :
    Proceeds (exec i s) := by
  have ⟨hp, _, hlfo, _⟩ := hinv
  obtain ⟨-, hroom, -⟩ := hroom
  match i, hi with
  | .lfoRender, _ =>
    obtain ⟨st, r, o, hrun, -⟩ := oscillatorRender s hinv
    exact ⟨_, hrun⟩
  | .lfoPeriod n, _ => exact setter_proceeds (put := State.withLfo) (lfoRecompute_completes hp hlfo.inRange hroom)
  | .lfoDuty d, _ => exact setter_proceeds (put := State.withLfo) (lfoRecompute_completes hp hlfo.inRange hroom)

/-- While the sequencer holds, at an advance and within a step (R172). -/
theorem exec_seqRender_proceeds {s : State} (hinv : Inv s) : Proceeds (exec .seqRender s) := by
  by_cases hrun : s.seq.gated = true ∧ 0 < s.seq.nSteps.toNat
  · obtain ⟨hgate, hn⟩ := hrun
    by_cases hleave : s.seq.rstPending = true ∨ s.seq.ramp.len.toNat ≤ s.seq.ramp.phase.toNat
    · obtain ⟨idx, x, r, ge, o, ev, hnext, -⟩ := sequencerRenderAdvances s hinv hgate hn hleave
      exact ⟨_, hnext⟩
    · obtain ⟨hpend, hlt⟩ := not_or.mp hleave
      obtain ⟨v, ph, o, hnext, -⟩ :=
        sequencerRenderWithinAStep s hinv hgate hn (Bool.eq_false_iff.mpr hpend) (Nat.not_le.mp hlt)
      exact ⟨_, hnext⟩
  · have hstill : s.seq.gated = false ∨ s.seq.nSteps.toNat = 0 := by
      rwa [not_and_or, Bool.not_eq_true, Nat.not_lt, Nat.le_zero] at hrun
    exact ⟨_, sequencerRenderHoldsWhenUngatedOrEmpty s hstill⟩

/-- An append answers at the capacity and below it (R66). -/
theorem seqAppendStep_proceeds (s : State) (x : Step) : Proceeds (seqAppendStep s x) := by
  by_cases hfull : s.params.seqCap ≤ s.seq.nSteps.toNat
  · exact ⟨_, seqAppendStep_of_full x hfull⟩
  · exact ⟨_, seqAppendStep_of_room x (Nat.not_le.mp hfull)⟩

/-- A rewrite of a value completes inside the sequence, and outside it does nothing (R65, R177). -/
theorem exec_seqSetstep_proceeds {s : State} (hinv : Inv s) (hroom : CounterRoom s) (k : Nat) (v : Int) :
    Proceeds (exec (.seqSetstep k v) s) := by
  obtain ⟨-, -, hseq⟩ := hroom
  by_cases hk : k < s.seq.nSteps.toNat
  · obtain ⟨x, y, m, tg, sl, ge, hrun, -⟩ :=
      rewriteOfAStepValue s k v hinv hk fun _ _ _ => fits_entryTicks hseq s.seq.glidelen
    exact ⟨_, hrun⟩
  · exact ⟨_, (rewriteOutOfRangeIsIgnored s k v 0 (Nat.not_lt.mp hk)).1⟩

/-- A rewrite of both fields completes inside the sequence, and outside it does nothing (R65, R178). -/
theorem exec_seqSetstepl_proceeds {s : State} (hinv : Inv s) (hroom : CounterRoom s) (k : Nat) (v n : Int) :
    Proceeds (exec (.seqSetstepl k v n) s) := by
  obtain ⟨-, -, hseq⟩ := hroom
  by_cases hk : k < s.seq.nSteps.toNat
  · obtain ⟨x, y, m, tg, sl, ln, ge, hrun, -⟩ := rewriteOfAStepValueAndLength s k v n hinv hk
      (fun _ _ _ => fits_entryTicks hseq s.seq.glidelen) fun _ _ _ _ => fits_remainTicks_lenOf hseq hinv.1 n
    exact ⟨_, hrun⟩
  · exact ⟨_, (rewriteOutOfRangeIsIgnored s k v n (Nat.not_lt.mp hk)).2⟩

theorem exec_seq_proceeds {i : Instr} {s : State} (hi : i.unit = .seq) (hinv : Inv s) (hroom : CounterRoom s) :
    Proceeds (exec i s) := by
  match i, hi with
  | .seqRender, _ => exact exec_seqRender_proceeds hinv
  | .seqAppend _, _ | .seqAppendl _ _, _ => exact seqAppendStep_proceeds s _
  | .seqSetstep k v, _ => exact exec_seqSetstep_proceeds hinv hroom k v
  | .seqSetstepl k v n, _ => exact exec_seqSetstepl_proceeds hinv hroom k v n
  | .seqSteplen _, _ | .seqGlide _, _ | .seqClear, _ | .seqGate _, _ | .seqReset, _ | .seqHeos _ _, _
  | .seqNsteps, _ | .seqUniform _, _ => exact ⟨_, rfl⟩

/-- Every operation completes while the counters have room (R112, R210). -/
theorem exec_proceeds (i : Instr) {s : State} (hinv : Inv s) (hroom : CounterRoom s) : Proceeds (exec i s) := by
  cases hi : i.unit with
  | env => exact exec_env_proceeds hi hinv hroom
  | lfo => exact exec_lfo_proceeds hi hinv hroom
  | seq => exact exec_seq_proceeds hi hinv hroom

/-- Settles O16: nothing presented and `rst` always step, a word steps by the operation it decodes to, or answers
`ILLEGAL`. -/
theorem noInputStopsTheCore : Obligations.NoInputStopsTheCore := by
  intro s hinv hroom
  match hin : s.inputs with
  | [] => exact ⟨_, idleStepChangesNoRegister s hin⟩
  | .rst :: rest => exact ⟨_, resetInputRestoresTheResetState s rest hin⟩
  | .cmd w :: rest =>
    match hdec : decode w with
    | .ok i =>
      rw [stepRunsTheDecodedOperation s w rest i hin hdec]
      exact exec_proceeds i hinv hroom
    | .error e => exact ⟨_, illegalOpcodeChangesNothing s w rest hin (decode_eq_error hdec).2⟩

end Sys2Proof.Machine
end

section
/-! The events (R215, R216): each of the two renders that fires any, and that nothing else does. -/

namespace Sys2Proof.Machine

open Claims

/-- An advance that is due wraps on a pending reset, or at the end of the last step (R170, R172). -/
theorem seqWraps_iff_of_advances {q : Seq} (hadv : (q.rstPending || q.ramp.atEnd) = true) :
    seqWraps q = true ↔
      q.rstPending = true ∨ (q.ramp.len.toNat ≤ q.ramp.phase.toNat ∧ q.nSteps.toNat ≤ q.stepIdx.toNat + 1) := by
  rw [seqRender_advances_iff] at hadv
  rw [seqWraps_iff]
  tauto

/-- `SEQ.RENDER` fires `EOS` when it advances and the advance wraps (R170, R172). -/
theorem execSeqRender_evt {s t : State} (h : execSeqRender s = .next t) :
    t.evt =
      if s.seq.gated = true ∧ 0 < s.seq.nSteps.toNat ∧
          (s.seq.rstPending = true ∨
            (s.seq.ramp.len.toNat ≤ s.seq.ramp.phase.toNat ∧ s.seq.nSteps.toNat ≤ s.seq.stepIdx.toNat + 1)) then
        slotEvent .eos s.seq.eos
      else none := by
  obtain ⟨hrun, rfl⟩ | ⟨hrun, q₁, ev, q₂, hadv, -, rfl⟩ := execSeqRender_eq_next h
  · rw [if_neg fun ⟨hgate, hn, _⟩ => Bool.eq_false_iff.mp hrun (Seq.runs_iff.mpr ⟨hgate, hn⟩)]
    rfl
  obtain ⟨hgate, hn⟩ := Seq.runs_iff.mp hrun
  simp only [State.answer_evt, hgate, hn, true_and]
  obtain ⟨hdue, hadv⟩ | ⟨hstay, -, rfl⟩ := hadv
  · obtain ⟨x, slope, glEnd, -, -, -, -, -, rfl⟩ := seqAdvance_eq_next hadv
    exact if_congr (seqWraps_iff_of_advances hdue) rfl rfl
  · refine (if_neg fun hwrap => Bool.eq_false_iff.mp hstay (seqRender_advances_iff.mpr ?_)).symm
    exact hwrap.imp_right And.left

theorem execLfoRender_evt {s t : State} (h : execLfoRender s = .next t) : t.evt = none := by
  obtain ⟨l, r, -, -, rfl⟩ := execLfoRender_eq_next h
  rfl

theorem seqAppendStep_evt {s t : State} {x : Step} (h : seqAppendStep s x = .next t) : t.evt = none := by
  obtain ⟨-, rfl⟩ | ⟨-, rfl⟩ := seqAppendStep_eq_next h
  · rfl
  · rfl

theorem execSeqSetstep_evt {s t : State} {i : Nat} {v : Int} (h : execSeqSetstep i v s = .next t) : t.evt = none := by
  obtain ⟨-, rfl⟩ | ⟨-, x, q, -, -, rfl⟩ := execSeqSetstep_eq_next h
  · rfl
  · rfl

theorem execSeqSetstepl_evt {s t : State} {i : Nat} {v n : Int} (h : execSeqSetstepl i v n s = .next t) :
    t.evt = none := by
  obtain ⟨-, rfl⟩ | ⟨-, x, q₁, q₂, -, -, -, rfl⟩ := execSeqSetstepl_eq_next h
  · rfl
  · rfl

/-- No operation but `ENV.RENDER` and `SEQ.RENDER` fires an event (R215). -/
theorem exec_evt_eq_none {i : Instr} {s t : State} (henv : i ≠ .envRender) (hseq : i ≠ .seqRender)
    (h : exec i s = .next t) : t.evt = none := by
  cases i with
  | envRender => exact absurd rfl henv
  | seqRender => exact absurd rfl hseq
  | envAtk | envDec | envSus | envRel | envRetrig | envGate | envHeod | envHeor =>
    exact exec_env_evt_of_ne_render rfl henv h
  | lfoRender => exact execLfoRender_evt h
  | lfoPeriod | lfoDuty => exact setter_evt (put := State.withLfo) h
  | seqAppend | seqAppendl => exact seqAppendStep_evt h
  | seqSetstep => exact execSeqSetstep_evt h
  | seqSetstepl => exact execSeqSetstepl_evt h
  | seqSteplen | seqGlide | seqClear | seqGate | seqReset | seqHeos | seqNsteps | seqUniform => exact returnOk_evt h

/-- A step that leaves an event ran one of the two renders (R215). -/
theorem step_evt_ne_none {s t : State} (h : step s = .next t) (hev : t.evt ≠ none) :
    ∃ (w : CmdWord) (rest : List Input), s.inputs = .cmd w :: rest ∧
      (decode w = .ok .envRender ∨ decode w = .ok .seqRender) := by
  obtain ⟨-, rfl⟩ | ⟨rest, -, rfl⟩ | ⟨w, rest, hin, rfl | ⟨i, hdec, hex⟩⟩ := step_eq_next h
  · exact absurd rfl hev
  · exact absurd rfl hev
  · exact absurd rfl hev
  refine ⟨w, rest, hin, ?_⟩
  by_contra hno
  obtain ⟨henv, hseq⟩ := not_or.mp hno
  exact hev (exec_evt_eq_none (fun hi => henv (hi ▸ hdec)) (fun hi => hseq (hi ▸ hdec)) hex)

/-- Settles O26: the event of each of the two renders, and none of any other operation or step. -/
theorem eventsFireExactlyAtTheirRenders : Obligations.EventsFireExactlyAtTheirRenders := by
  refine ⟨fun i s t h => ?_, fun s t => step_evt_ne_none⟩
  cases i with
  | envRender =>
    rw [(execEnvRender_exits h).2, Env.exitEvent]
    cases s.env.state <;> rfl
  | seqRender => exact execSeqRender_evt h
  | envAtk | envDec | envSus | envRel | envRetrig | envGate | envHeod | envHeor | lfoRender | lfoPeriod | lfoDuty
  | seqSteplen | seqGlide | seqAppend | seqAppendl | seqSetstep | seqSetstepl | seqClear | seqGate | seqReset | seqHeos
  | seqNsteps | seqUniform => exact exec_evt_eq_none (by nofun) (by nofun) h

end Sys2Proof.Machine
end
